-- ==== Sys2Proof/Word.lean ====
section
/-! DEFINITION. The word types of the core (spec/00_scope.md R9, R11): every value is an unsigned bit vector of the width
the rule gives it, and arithmetic on it wraps. -/

namespace Sys2Proof

/-- A V register, a timer, a memory byte, an immediate kk (00_scope R9, R12). -/
abbrev Byte := BitVec 8

/-- I, PC, a stack slot, an instruction word (00_scope R9, R10). -/
abbrev Word := BitVec 16

/-- A register number x or y, or a row count n (30_encoding R72). -/
abbrev Nibble := BitVec 4

/-- A 12-bit address operand nnn (30_encoding R72). -/
abbrev Addr12 := BitVec 12

end Sys2Proof
end

