-- ==== Sys2Proof/Syntax.lean ====
section
/-! DEFINITION. The 35 instructions, one constructor per row of spec/opcode_table.json (30_encoding.md R77, R78), with the
operand fields of R72. -/

namespace Sys2Proof

/-- A decoded instruction. Each constructor names its pattern and the rule that gives its meaning. -/
inductive Instr where
  /-- 0nnn but 00E0 and 00EE, R100. -/
  | sys (nnn : Addr12)
  /-- 00E0, R150. -/
  | cls
  /-- 00EE, R101. -/
  | ret
  /-- 1nnn, R102. -/
  | jp (nnn : Addr12)
  /-- 2nnn, R103. -/
  | call (nnn : Addr12)
  /-- 3xkk, R110. -/
  | seImm (x : Nibble) (kk : Byte)
  /-- 4xkk, R111. -/
  | sneImm (x : Nibble) (kk : Byte)
  /-- 5xy0, R112. -/
  | seReg (x y : Nibble)
  /-- 6xkk, R121. -/
  | ldImm (x : Nibble) (kk : Byte)
  /-- 7xkk, R122. -/
  | addImm (x : Nibble) (kk : Byte)
  /-- 8xy0, R123. -/
  | ldReg (x y : Nibble)
  /-- 8xy1, R124. -/
  | orReg (x y : Nibble)
  /-- 8xy2, R125. -/
  | andReg (x y : Nibble)
  /-- 8xy3, R126. -/
  | xorReg (x y : Nibble)
  /-- 8xy4, R127. -/
  | addReg (x y : Nibble)
  /-- 8xy5, R128. -/
  | subReg (x y : Nibble)
  /-- 8xy6, R129; y is decoded and ignored. -/
  | shrReg (x y : Nibble)
  /-- 8xy7, R130. -/
  | subnReg (x y : Nibble)
  /-- 8xyE, R131; y is decoded and ignored. -/
  | shlReg (x y : Nibble)
  /-- 9xy0, R113. -/
  | sneReg (x y : Nibble)
  /-- Annn, R140. -/
  | ldI (nnn : Addr12)
  /-- Bnnn, R104. -/
  | jpV0 (nnn : Addr12)
  /-- Cxkk, R132. -/
  | rnd (x : Nibble) (kk : Byte)
  /-- Dxyn, R151. -/
  | drw (x y n : Nibble)
  /-- Ex9E, R160. -/
  | skp (x : Nibble)
  /-- ExA1, R161. -/
  | sknp (x : Nibble)
  /-- Fx07, R166. -/
  | ldVxDT (x : Nibble)
  /-- Fx0A, R164. -/
  | ldVxK (x : Nibble)
  /-- Fx15, R167. -/
  | ldDTVx (x : Nibble)
  /-- Fx18, R168. -/
  | ldSTVx (x : Nibble)
  /-- Fx1E, R141. -/
  | addI (x : Nibble)
  /-- Fx29, R142. -/
  | ldF (x : Nibble)
  /-- Fx33, R143. -/
  | ldB (x : Nibble)
  /-- Fx55, R144. -/
  | storeRegs (x : Nibble)
  /-- Fx65, R145. -/
  | loadRegs (x : Nibble)
  deriving DecidableEq, Repr

end Sys2Proof
end

