-- ==== Sys2Proof/Decode.lean ====
section
/-! DEFINITION. Instruction words: fields (30_encoding.md R72), byte order (20_memory.md R60), the decoder of R77, the
encoder of the opcode map R78, and the map itself as rows of mask and match. Decoding reads the word alone (R75). -/

namespace Sys2Proof

/-! ## Fields (R72) -/

/-- op = w[15:12]. -/
def fieldOp (w : Word) : Nibble := w.extractLsb' 12 4

/-- x = w[11:8]. -/
def fieldX (w : Word) : Nibble := w.extractLsb' 8 4

/-- y = w[7:4]. -/
def fieldY (w : Word) : Nibble := w.extractLsb' 4 4

/-- n = w[3:0]. -/
def fieldN (w : Word) : Nibble := w.extractLsb' 0 4

/-- kk = w[7:0]. -/
def fieldKK (w : Word) : Byte := w.extractLsb' 0 8

/-- nnn = w[11:0]. -/
def fieldNNN (w : Word) : Addr12 := w.extractLsb' 0 12

/-! ## Formats (R73) -/

/-- Format nnn: op in bits 15:12, an address below. -/
def wordNNN (op : Nibble) (nnn : Addr12) : Word := op ++ nnn

/-- Formats xkk and xff: op, a register, a byte. -/
def wordXKK (op x : Nibble) (kk : Byte) : Word := op ++ x ++ kk

/-- Formats xy0, xyf and xyn: op, two registers, a nibble. -/
def wordXYN (op x y n : Nibble) : Word := op ++ x ++ y ++ n

/-! ## Byte order (20_memory R60) -/

/-- The word of two bytes in memory order: the first byte is bits 15:8. -/
def wordOfBytes (hi lo : Byte) : Word := hi ++ lo

/-- The first byte of a word in memory: bits 15:8. -/
def hiByte (w : Word) : Byte := w.extractLsb' 8 8

/-- The second byte of a word in memory: bits 7:0. -/
def loByte (w : Word) : Byte := w.extractLsb' 0 8

/-! ## Decode (R77, R79) -/

/-- Why bytes are no instruction. -/
inductive DecodeError where
  /-- The word matches none of the 35 rows (R79); the step reports it and goes on (60_exceptions R175). -/
  | unknown (w : Word)
  /-- Fewer than two bytes: no instruction is shorter than one word (R70). -/
  | truncated
  deriving DecidableEq, Repr

/-- Family 0x0: CLS and RET first, every other word is SYS (R77). -/
def decode0 (w : Word) : Except DecodeError Instr :=
  if w = 0x00E0#16 then .ok .cls
  else if w = 0x00EE#16 then .ok .ret
  else .ok (.sys (fieldNNN w))

/-- Family 0x8: the low nibble selects the operation (R77). -/
def decode8 (w : Word) : Except DecodeError Instr :=
  if fieldN w = 0x0#4 then .ok (.ldReg (fieldX w) (fieldY w))
  else if fieldN w = 0x1#4 then .ok (.orReg (fieldX w) (fieldY w))
  else if fieldN w = 0x2#4 then .ok (.andReg (fieldX w) (fieldY w))
  else if fieldN w = 0x3#4 then .ok (.xorReg (fieldX w) (fieldY w))
  else if fieldN w = 0x4#4 then .ok (.addReg (fieldX w) (fieldY w))
  else if fieldN w = 0x5#4 then .ok (.subReg (fieldX w) (fieldY w))
  else if fieldN w = 0x6#4 then .ok (.shrReg (fieldX w) (fieldY w))
  else if fieldN w = 0x7#4 then .ok (.subnReg (fieldX w) (fieldY w))
  else if fieldN w = 0xE#4 then .ok (.shlReg (fieldX w) (fieldY w))
  else .error (.unknown w)

/-- Family 0xE: the low byte selects the key skip (R77). -/
def decodeE (w : Word) : Except DecodeError Instr :=
  if fieldKK w = 0x9E#8 then .ok (.skp (fieldX w))
  else if fieldKK w = 0xA1#8 then .ok (.sknp (fieldX w))
  else .error (.unknown w)

/-- Family 0xF: the low byte selects the operation (R77). -/
def decodeF (w : Word) : Except DecodeError Instr :=
  if fieldKK w = 0x07#8 then .ok (.ldVxDT (fieldX w))
  else if fieldKK w = 0x0A#8 then .ok (.ldVxK (fieldX w))
  else if fieldKK w = 0x15#8 then .ok (.ldDTVx (fieldX w))
  else if fieldKK w = 0x18#8 then .ok (.ldSTVx (fieldX w))
  else if fieldKK w = 0x1E#8 then .ok (.addI (fieldX w))
  else if fieldKK w = 0x29#8 then .ok (.ldF (fieldX w))
  else if fieldKK w = 0x33#8 then .ok (.ldB (fieldX w))
  else if fieldKK w = 0x55#8 then .ok (.storeRegs (fieldX w))
  else if fieldKK w = 0x65#8 then .ok (.loadRegs (fieldX w))
  else .error (.unknown w)

/-- Decode(w) of R77, total over all 65536 words. -/
def decodeWord (w : Word) : Except DecodeError Instr :=
  if fieldOp w = 0x0#4 then decode0 w
  else if fieldOp w = 0x1#4 then .ok (.jp (fieldNNN w))
  else if fieldOp w = 0x2#4 then .ok (.call (fieldNNN w))
  else if fieldOp w = 0x3#4 then .ok (.seImm (fieldX w) (fieldKK w))
  else if fieldOp w = 0x4#4 then .ok (.sneImm (fieldX w) (fieldKK w))
  else if fieldOp w = 0x5#4 then (if fieldN w = 0x0#4 then .ok (.seReg (fieldX w) (fieldY w)) else .error (.unknown w))
  else if fieldOp w = 0x6#4 then .ok (.ldImm (fieldX w) (fieldKK w))
  else if fieldOp w = 0x7#4 then .ok (.addImm (fieldX w) (fieldKK w))
  else if fieldOp w = 0x8#4 then decode8 w
  else if fieldOp w = 0x9#4 then (if fieldN w = 0x0#4 then .ok (.sneReg (fieldX w) (fieldY w)) else .error (.unknown w))
  else if fieldOp w = 0xA#4 then .ok (.ldI (fieldNNN w))
  else if fieldOp w = 0xB#4 then .ok (.jpV0 (fieldNNN w))
  else if fieldOp w = 0xC#4 then .ok (.rnd (fieldX w) (fieldKK w))
  else if fieldOp w = 0xD#4 then .ok (.drw (fieldX w) (fieldY w) (fieldN w))
  else if fieldOp w = 0xE#4 then decodeE w
  else decodeF w

/-- The instruction at the head of a byte sequence and the bytes after it: two bytes, big-endian, for every instruction
(R70, 20_memory R60). -/
def decodeBytes : List Byte → Except DecodeError (Instr × List Byte)
  | hi :: lo :: rest => (decodeWord (wordOfBytes hi lo)).map (fun i => (i, rest))
  | _ => .error .truncated

/-! ## Encode (R78) -/

/-- The word of an instruction, from the pattern column of R78. -/
def encode : Instr → Word
  | .sys nnn => wordNNN 0x0 nnn
  | .cls => 0x00E0
  | .ret => 0x00EE
  | .jp nnn => wordNNN 0x1 nnn
  | .call nnn => wordNNN 0x2 nnn
  | .seImm x kk => wordXKK 0x3 x kk
  | .sneImm x kk => wordXKK 0x4 x kk
  | .seReg x y => wordXYN 0x5 x y 0x0
  | .ldImm x kk => wordXKK 0x6 x kk
  | .addImm x kk => wordXKK 0x7 x kk
  | .ldReg x y => wordXYN 0x8 x y 0x0
  | .orReg x y => wordXYN 0x8 x y 0x1
  | .andReg x y => wordXYN 0x8 x y 0x2
  | .xorReg x y => wordXYN 0x8 x y 0x3
  | .addReg x y => wordXYN 0x8 x y 0x4
  | .subReg x y => wordXYN 0x8 x y 0x5
  | .shrReg x y => wordXYN 0x8 x y 0x6
  | .subnReg x y => wordXYN 0x8 x y 0x7
  | .shlReg x y => wordXYN 0x8 x y 0xE
  | .sneReg x y => wordXYN 0x9 x y 0x0
  | .ldI nnn => wordNNN 0xA nnn
  | .jpV0 nnn => wordNNN 0xB nnn
  | .rnd x kk => wordXKK 0xC x kk
  | .drw x y n => wordXYN 0xD x y n
  | .skp x => wordXKK 0xE x 0x9E
  | .sknp x => wordXKK 0xE x 0xA1
  | .ldVxDT x => wordXKK 0xF x 0x07
  | .ldVxK x => wordXKK 0xF x 0x0A
  | .ldDTVx x => wordXKK 0xF x 0x15
  | .ldSTVx x => wordXKK 0xF x 0x18
  | .addI x => wordXKK 0xF x 0x1E
  | .ldF x => wordXKK 0xF x 0x29
  | .ldB x => wordXKK 0xF x 0x33
  | .storeRegs x => wordXKK 0xF x 0x55
  | .loadRegs x => wordXKK 0xF x 0x65

/-- The bytes of an instruction in memory order (20_memory R60). -/
def encodeBytes (i : Instr) : List Byte := [hiByte (encode i), loByte (encode i)]

/-- The ROM bytes of a program: its words one after the other (R81). -/
def assemble : List Instr → List Byte
  | [] => []
  | i :: rest => encodeBytes i ++ assemble rest

/-! ## The opcode map as rows (R78) -/

/-- A row of R78: a word w is in the row when w and mask = pattern. -/
structure OpcodeRow where
  pattern : Word
  mask : Word
  deriving DecidableEq, Repr

/-- The word has the row's fixed bits (R78). -/
def OpcodeRow.covers (r : OpcodeRow) (w : Word) : Bool := w &&& r.mask == r.pattern

/-- Row 1, SYS: its bits also fit CLS and RET, which take priority. -/
def rowSys : OpcodeRow := ⟨0x0000, 0xF000⟩

/-- Row 2, CLS. -/
def rowCls : OpcodeRow := ⟨0x00E0, 0xFFFF⟩

/-- Row 3, RET. -/
def rowRet : OpcodeRow := ⟨0x00EE, 0xFFFF⟩

/-- The match and mask columns of R78, in the table's order. -/
def Instr.row : Instr → OpcodeRow
  | .sys _ => rowSys
  | .cls => rowCls
  | .ret => rowRet
  | .jp _ => ⟨0x1000, 0xF000⟩
  | .call _ => ⟨0x2000, 0xF000⟩
  | .seImm _ _ => ⟨0x3000, 0xF000⟩
  | .sneImm _ _ => ⟨0x4000, 0xF000⟩
  | .seReg _ _ => ⟨0x5000, 0xF00F⟩
  | .ldImm _ _ => ⟨0x6000, 0xF000⟩
  | .addImm _ _ => ⟨0x7000, 0xF000⟩
  | .ldReg _ _ => ⟨0x8000, 0xF00F⟩
  | .orReg _ _ => ⟨0x8001, 0xF00F⟩
  | .andReg _ _ => ⟨0x8002, 0xF00F⟩
  | .xorReg _ _ => ⟨0x8003, 0xF00F⟩
  | .addReg _ _ => ⟨0x8004, 0xF00F⟩
  | .subReg _ _ => ⟨0x8005, 0xF00F⟩
  | .shrReg _ _ => ⟨0x8006, 0xF00F⟩
  | .subnReg _ _ => ⟨0x8007, 0xF00F⟩
  | .shlReg _ _ => ⟨0x800E, 0xF00F⟩
  | .sneReg _ _ => ⟨0x9000, 0xF00F⟩
  | .ldI _ => ⟨0xA000, 0xF000⟩
  | .jpV0 _ => ⟨0xB000, 0xF000⟩
  | .rnd _ _ => ⟨0xC000, 0xF000⟩
  | .drw _ _ _ => ⟨0xD000, 0xF000⟩
  | .skp _ => ⟨0xE09E, 0xF0FF⟩
  | .sknp _ => ⟨0xE0A1, 0xF0FF⟩
  | .ldVxDT _ => ⟨0xF007, 0xF0FF⟩
  | .ldVxK _ => ⟨0xF00A, 0xF0FF⟩
  | .ldDTVx _ => ⟨0xF015, 0xF0FF⟩
  | .ldSTVx _ => ⟨0xF018, 0xF0FF⟩
  | .addI _ => ⟨0xF01E, 0xF0FF⟩
  | .ldF _ => ⟨0xF029, 0xF0FF⟩
  | .ldB _ => ⟨0xF033, 0xF0FF⟩
  | .storeRegs _ => ⟨0xF055, 0xF0FF⟩
  | .loadRegs _ => ⟨0xF065, 0xF0FF⟩

/-! ## The host's question about a table row -/

/-- What the decoder reads from an instruction whose bits are w, bit 0 the least significant bit of its one word, the bits
from nbits up being 0. An instruction is one 16-bit word (R70), laid out big-endian (20_memory R60): more than 16 bits are no
instruction. -/
def decodeTableWord (nbits w : Nat) : Option Instr :=
  if nbits ≤ 16 then
    let word : Word := BitVec.ofNat 16 (w % 2 ^ nbits)
    match decodeBytes [hiByte word, loByte word] with
    | .ok (i, _) => some i
    | .error _ => none
  else none

end Sys2Proof
end

