-- ==== Sys2Proof/Config.lean ====
section
/-! DEFINITION. What the spec fixes for this hardware (00_scope.md R9) and the one value it leaves open (RNG, R132, D19).
CPU_HZ and the tick rate are not constants here: time is the interleaving of host events (60_exceptions R181). The font base
and the font bytes stand in Machine/Ops.lean. -/

namespace Sys2Proof.Config

/-- MEM_SIZE: addresses 0x000 to 0xFFF (00_scope R9, 20_memory R50). -/
@[simp] abbrev memSize : Nat := 0x1000

/-- PROG_START: the ROM load address and the reset PC (00_scope R9). Addresses below it are the reserved region. -/
@[simp] abbrev progStart : Nat := 0x200

/-- ROM_MAX: 0xFFF - 0x200 + 1 bytes (00_scope R9). -/
@[simp] abbrev romMax : Nat := 0xE00

/-- STACK_DEPTH (00_scope R9, 10_state R27). -/
@[simp] abbrev stackDepth : Nat := 16

/-- DISP_W (00_scope R9, 10_state R30). -/
@[simp] abbrev dispWidth : Nat := 64

/-- DISP_H (00_scope R9, 10_state R30). -/
@[simp] abbrev dispHeight : Nat := 32

/-- NUM_KEYS (00_scope R9, 10_state R32). -/
@[simp] abbrev numKeys : Nat := 16

/-- The RNG oracle of 42_alu R132 (OPEN parameter RNG, 92 D19): the byte of the k-th draw. It has no body, so nothing can be
proved of it but that it is some byte. FREE VALUE, log 2. -/
opaque randomByte : Nat → Byte

end Sys2Proof.Config
end

