-- ==== Sys2Proof/Machine/State.lean ====
section
/-! DEFINITION. The machine state of 10_state.md R20 as plain data, the fault record of R36, the reasons a step can stop,
a snapshot (70_reset_and_hazards.md R206), and the state at power-on (R37, R201). -/

namespace Sys2Proof.Machine

/-! ## Faults -/

/-- The kinds a fault record holds: the three fatal kinds of 60_exceptions R170. -/
inductive FaultKind where
  /-- A fetch or a memory instruction addresses outside 0x000-0xFFF, or a store addresses 0x000-0x1FF (20_memory R53 to R57). -/
  | addressingFault
  /-- CALL with 16 entries on the stack (40_flow R103). -/
  | stackOverflow
  /-- RET with an empty stack (40_flow R101). -/
  | stackUnderflow
  deriving DecidableEq, Repr

/-- The FAULT record of 10_state R36. -/
structure FaultRecord where
  kind : FaultKind
  /-- The address of the instruction that faulted. -/
  pc : Word
  /-- Its word, or none when the fetch itself faulted. -/
  word : Option Word
  /-- The first failing address for an addressing fault, none for a stack fault. It is an exact sum that may exceed 16 bits
  (20_memory R58), so a Nat. -/
  addr : Option Nat
  deriving DecidableEq, Repr

/-- How a step can stop with a fault. -/
inductive Fault where
  /-- Raised by step alone, on a core whose FAULT is already set: the step returns Faulted(FAULT) and changes no state
  (60_exceptions R173), so the state is the one the step began in. The step that raises the fault is no stop: it answers the
  next state with FAULT set (R172). Safe: no instruction runs on a faulted core. -/
  | faulted (record : FaultRecord)
  deriving DecidableEq, Repr

/-- How a step can be refused. -/
inductive Refusal where
  /-- Raised by an arm of exec whose instruction has no meaning yet; no arm is left that does. Safe: nothing can be proved of
  what such an instruction does. -/
  | notModelled (mnemonic : String)
  /-- Raised by the meanings of CALL and RET in a state whose SP is above 16, which no run reaches and no restore makes
  (10_state R26, R33, 70_reset R207): the stack has no such slot and the spec gives no effect. Safe: log 4. -/
  | stackPointerOutOfRange
  deriving DecidableEq, Repr

/-! ## The state -/

/-- The memory M as cells at rising addresses, an address that is not listed reading as its power-on byte. The form, the
reads and the writes are in Machine/Ops.lean. -/
abbrev Memory := List Host.Cell

/-- DISP: 32 rows, row 0 on top, each of 64 one-bit pixels; the pixel at column x is bit x of its row (10_state R30, D29). -/
abbrev Display := Vector (BitVec 64) 32

/-- The machine state: the record of 10_state R20, and the position of the RNG oracle. -/
structure State where
  /-- M, 4096 bytes (10_state R31). -/
  mem : Memory
  /-- V0 to VF (R21). -/
  v : Vector Byte 16
  /-- I (R24). -/
  i : Word
  /-- PC (R25). At fetch the address of the instruction; in an execute body that address plus 2 (30_encoding R76). -/
  pc : Word
  /-- SP, the number of return addresses on the stack (R26). -/
  sp : Byte
  /-- STACK (R27). -/
  stack : Vector Word 16
  /-- DT (R28). -/
  dt : Byte
  /-- ST (R29). -/
  st : Byte
  /-- DISP (R30). -/
  disp : Display
  /-- KEY, true when the key is pressed (R32). -/
  key : Vector Bool 16
  /-- FAULT (R36). -/
  fault : Option FaultRecord
  /-- The model's own field, no state of the spec: how many bytes the RNG oracle has given (42_alu R132, log 2). -/
  draws : Nat
  deriving DecidableEq, Repr

/-- The contents of a snapshot: every element of 10_state R20 and nothing else (70_reset R206). The oracle's position is
outside the machine and no part of it. -/
structure Snapshot where
  mem : Memory
  v : Vector Byte 16
  i : Word
  pc : Word
  sp : Byte
  stack : Vector Word 16
  dt : Byte
  st : Byte
  disp : Display
  key : Vector Bool 16
  fault : Option FaultRecord
  deriving DecidableEq, Repr

/-- The machine right after power-on and reset (10_state R37, 70_reset R201): memory lists nothing, so every byte reads as
its power-on value. draws = 0 is DESIGN CHOICE, log 2. -/
def State.reset : State where
  mem := []
  v := Vector.replicate 16 0x00
  i := 0x0000
  pc := 0x0200
  sp := 0
  stack := Vector.replicate 16 0x0000
  dt := 0x00
  st := 0x00
  disp := Vector.replicate 32 0
  key := Vector.replicate 16 false
  fault := none
  draws := 0

end Sys2Proof.Machine
end

