-- ==== Sys2Proof/Machine/Ops.lean ====
section
/-! DEFINITION. The named operations over memory and registers: the font and the memory (20_memory.md), the registers
(10_state.md), the checked accesses of 00_scope.md R13, raising a fault (60_exceptions.md R172), and the fetch
(30_encoding.md R71). -/

namespace Sys2Proof.Machine

/-! ## The font (20_memory R52, R59, D15) -/

/-- FONT_BASE (00_scope R9, D15). -/
def fontBase : Nat := 0x050

/-- FONT_GLYPH_BYTES (00_scope R9). -/
def fontGlyphBytes : Nat := 5

/-- Glyphs 0 to 7 (20_memory R59). -/
def fontLow : List Byte :=
  [0xF0, 0x90, 0x90, 0x90, 0xF0,
   0x20, 0x60, 0x20, 0x20, 0x70,
   0xF0, 0x10, 0xF0, 0x80, 0xF0,
   0xF0, 0x10, 0xF0, 0x10, 0xF0,
   0x90, 0x90, 0xF0, 0x10, 0x10,
   0xF0, 0x80, 0xF0, 0x10, 0xF0,
   0xF0, 0x80, 0xF0, 0x90, 0xF0,
   0xF0, 0x10, 0x20, 0x40, 0x40]

/-- Glyphs 8 to F (20_memory R59). -/
def fontHigh : List Byte :=
  [0xF0, 0x90, 0xF0, 0x90, 0xF0,
   0xF0, 0x90, 0xF0, 0x10, 0xF0,
   0xF0, 0x90, 0xF0, 0x90, 0x90,
   0xE0, 0x90, 0xE0, 0x90, 0xE0,
   0xF0, 0x80, 0x80, 0x80, 0xF0,
   0xE0, 0x90, 0x90, 0x90, 0xE0,
   0xF0, 0x80, 0xF0, 0x80, 0xF0,
   0xF0, 0x80, 0xF0, 0x80, 0x80]

/-- FONT: the 80 font bytes in order from FONT_BASE (20_memory R59). -/
def font : List Byte := fontLow ++ fontHigh

/-! ## Memory (20_memory R50 to R63) -/

/-- What an address that is not listed reads as: its power-on byte, a font byte or 0x00 (10_state R37, 70_reset R201). -/
def Memory.unlisted (a : Nat) : Byte :=
  if fontBase ≤ a then font.getD (a - fontBase) 0x00 else 0x00

/-- M[a]. -/
def Memory.read : Memory → Nat → Byte
  | [], a => Memory.unlisted a
  | (b, v) :: rest, a => if b = a then v else Memory.read rest a

/-- M[a] <- v, in canonical form: a byte that an unlisted address would read as is not listed. -/
def Memory.write : Memory → Nat → Byte → Memory
  | [], a, v => if v = Memory.unlisted a then [] else [(a, v)]
  | (b, w) :: rest, a, v =>
    if a < b then (if v = Memory.unlisted a then (b, w) :: rest else (a, v) :: (b, w) :: rest)
    else if a = b then (if v = Memory.unlisted a then rest else (a, v) :: rest)
    else (b, w) :: Memory.write rest a v

/-- The canonical form from address lo up: addresses rise strictly, lie in 0x000-0xFFF, and no entry equals what its address
reads as unlisted. -/
def Memory.wfFrom : Nat → Memory → Bool
  | _, [] => true
  | lo, (a, v) :: rest =>
    decide (lo ≤ a) && decide (a < Config.memSize) && v != Memory.unlisted a && Memory.wfFrom (a + 1) rest

/-- The memory is in canonical form. -/
def Memory.wf (m : Memory) : Bool := Memory.wfFrom 0 m

/-- The n bytes M[a], M[a+1], ... -/
def Memory.readBytes (m : Memory) : Nat → Nat → List Byte
  | _, 0 => []
  | a, n + 1 => Memory.read m a :: Memory.readBytes m (a + 1) n

/-- M[a+k] <- bytes[k] for every byte. -/
def Memory.writeBytes : Memory → Nat → List Byte → Memory
  | m, _, [] => m
  | m, a, b :: rest => Memory.writeBytes (Memory.write m a b) (a + 1) rest

/-- Every byte of the reserved region back to its reset value (70_reset R200): no address below 0x200 stays listed. -/
def Memory.resetReserved (m : Memory) : Memory := m.filter (fun c => decide (Config.progStart ≤ c.1))

/-- Entries that make a listed range of addresses read 0x00, from a list of the bytes those addresses read as unlisted. -/
def Memory.zeroCells : Nat → List Byte → Memory
  | _, [] => []
  | a, b :: rest => if b = 0x00 then Memory.zeroCells (a + 1) rest else (a, 0x00) :: Memory.zeroCells (a + 1) rest

/-- The memory every byte of which is 0x00 (70_reset R201, before its Reset). -/
def Memory.zeroed : Memory := Memory.zeroCells fontBase font

/-! ## Access checks (20_memory R53 to R58) -/

/-- A read of address a succeeds (R53, R54). -/
def readable (a : Nat) : Bool := decide (a < Config.memSize)

/-- A write by an instruction to address a succeeds (R55, R56). -/
def writable (a : Nat) : Bool := decide (Config.progStart ≤ a) && decide (a < Config.memSize)

/-- The first of the addresses a, a+1, ..., a+n-1, as exact sums, that fails the check (R57, R58). -/
def firstFailing (ok : Nat → Bool) : Nat → Nat → Option Nat
  | _, 0 => none
  | a, n + 1 => if ok a then firstFailing ok (a + 1) n else some a

/-- MemRead(a, n) of 00_scope R13: the bytes, or the first failing address. -/
def memRead (a n : Nat) (s : State) : Except Nat (List Byte) :=
  match firstFailing readable a n with
  | some bad => .error bad
  | none => .ok (Memory.readBytes s.mem a n)

/-- MemWrite(a, n, bytes) of 00_scope R13: the state with the bytes written, or the first failing address and nothing
written. -/
def memWrite (a : Nat) (bytes : List Byte) (s : State) : Except Nat State :=
  match firstFailing writable a bytes.length with
  | some bad => .error bad
  | none => .ok { s with mem := Memory.writeBytes s.mem a bytes }

/-! ## Registers (10_state R21 to R32, accessors of 00_scope R12) -/

/-- V[x]. -/
def State.getV (s : State) (x : Nibble) : Byte := s.v[x.toNat]'x.isLt

/-- V[x] <- b. -/
def State.setV (s : State) (x : Nibble) (b : Byte) : State := { s with v := s.v.set x.toNat b x.isLt }

/-- I <- a. -/
def State.setI (s : State) (a : Word) : State := { s with i := a }

/-- PC <- a. -/
def State.setPc (s : State) (a : Word) : State := { s with pc := a }

/-- DT <- b. -/
def State.setDt (s : State) (b : Byte) : State := { s with dt := b }

/-- ST <- b. -/
def State.setSt (s : State) (b : Byte) : State := { s with st := b }

/-- DISP <- d. -/
def State.setDisp (s : State) (d : Display) : State := { s with disp := d }

/-- KEY[k]. -/
def State.getKey (s : State) (k : Nibble) : Bool := s.key[k.toNat]'k.isLt

/-- KEY[k] <- pressed, a host operation (60_exceptions R185). -/
def State.setKey (s : State) (k : Nibble) (pressed : Bool) : State :=
  { s with key := s.key.set k.toNat pressed k.isLt }

/-- FAULT <- f. -/
def State.setFault (s : State) (f : Option FaultRecord) : State := { s with fault := f }

/-- Push a return address: STACK[SP] <- a, SP <- SP + 1, where the slot exists (40_flow R103). -/
def State.push (s : State) (a : Word) (h : s.sp.toNat < Config.stackDepth) : State :=
  { s with stack := s.stack.set s.sp.toNat a h, sp := s.sp + 1 }

/-- Pop: SP <- SP - 1; the slot keeps its value (40_flow R101). The address popped is STACK[SP - 1]. -/
def State.pop (s : State) : State := { s with sp := s.sp - 1 }

/-- One byte asked of the RNG oracle (00_scope R14, 42_alu R132): the byte at the oracle's position, FREE VALUE (log 2). -/
def State.randomByte (s : State) : Byte := Config.randomByte s.draws

/-- The oracle has given one more byte. -/
def State.countDraw (s : State) : State := { s with draws := s.draws + 1 }

/-! ## The advance of PC (30_encoding R76) -/

/-- PC <- trunc_16(PC + 2): the advance before the execute phase, and what a taken skip adds. -/
def State.advancePc (s : State) : State := { s with pc := s.pc + 2 }

/-- The address of the instruction being executed: the advanced PC less 2 (40_flow, preamble). -/
def State.instrAddr (s : State) : Word := s.pc - 2

/-- The state at the start of the step, from the state an execute body begins in: PC back to the instruction (R71's s0). -/
def State.rewindPc (s : State) : State := { s with pc := s.instrAddr }

/-! ## Taking a fault (60_exceptions R171, R172) -/

/-- The outcomes of a step. -/
abbrev Result := Host.Outcome State Fault Refusal

/-- The record of a fault the instruction i raises, executing from state s (R171): its own address, its word, and the
failing address for an addressing fault. -/
def faultRecord (i : Instr) (kind : FaultKind) (addr : Option Nat) (s : State) : FaultRecord :=
  { kind := kind, pc := s.instrAddr, word := some (encode i), addr := addr }

/-- raise (00_scope R14, 60_exceptions R172): s is the state the execute body began in, which no meaning has written to yet;
every effect of the step is discarded, the advance of PC with them, and FAULT is set. -/
def raise (i : Instr) (kind : FaultKind) (addr : Option Nat) (s : State) : Result :=
  .next { s.rewindPc with fault := some (faultRecord i kind addr s) }

/-- A state whose FAULT is set and nothing else: a fetch that faults (30_encoding R71), before PC is advanced. -/
def raiseFetch (addr : Nat) (s : State) : Result :=
  .next { s with fault := some { kind := .addressingFault, pc := s.pc, word := none, addr := some addr } }

/-! ## Fetch (30_encoding R71, 20_memory R60, D30) -/

/-- The instruction word at PC, or the first failing address of PC, PC + 1. -/
def fetch (s : State) : Except Nat Word :=
  if ¬ readable s.pc.toNat then .error s.pc.toNat
  else if ¬ readable (s.pc.toNat + 1) then .error (s.pc.toNat + 1)
  else .ok (wordOfBytes (Memory.read s.mem s.pc.toNat) (Memory.read s.mem (s.pc.toNat + 1)))

/-- An unknown word (60_exceptions R175): PC stays advanced, nothing else changes. -/
def skipUnknown (s : State) : Result := .next s.advancePc

end Sys2Proof.Machine
end

