-- ==== Sys2Proof/Machine/Flags.lean ====
section
/-! DEFINITION. Exact unsigned arithmetic narrowed at the end, and every flag computation: carry, no-borrow, the bit shifted
out, collision (42_alu.md R120, 10_state.md R22). -/

namespace Sys2Proof.Machine

/-- The byte a flag is written as: 1 or 0. -/
def flagByte (f : Bool) : Byte := if f then 0x01 else 0x00

/-- trunc_8(a + b) of the exact sum (R120). -/
def addTrunc (a b : Byte) : Byte := BitVec.ofNat 8 (a.toNat + b.toNat)

/-- Carry: the exact sum exceeds 0xFF (R120). -/
def carry (a b : Byte) : Bool := decide (0xFF < a.toNat + b.toNat)

/-- trunc_8(a - b + 256) (42_alu R128). -/
def subTrunc (a b : Byte) : Byte := BitVec.ofNat 8 (a.toNat + 256 - b.toNat)

/-- No borrow: the minuend a is at least the subtrahend b (R120, D10). -/
def noBorrow (a b : Byte) : Bool := decide (b.toNat ≤ a.toNat)

/-- a >> 1 (42_alu R129). -/
def shrOne (a : Byte) : Byte := a >>> 1

/-- The bit a right shift by 1 shifts out: a[0] (R129). -/
def shrOut (a : Byte) : Bool := a.getLsbD 0

/-- trunc_8(a << 1) (42_alu R131). -/
def shlOne (a : Byte) : Byte := a <<< 1

/-- The bit a left shift by 1 shifts out: a[7] (R131). -/
def shlOut (a : Byte) : Bool := a.getLsbD 7

/-- VF <- flag. -/
def State.setFlag (s : State) (f : Bool) : State := s.setV 0xF (flagByte f)

/-- The result into Vx and then the flag into VF: where x is F the flag stays (42_alu R120, 10_state R22, D9). -/
def State.setVThenFlag (s : State) (x : Nibble) (b : Byte) (f : Bool) : State := (s.setV x b).setFlag f

end Sys2Proof.Machine
end

