-- ==== Sys2Proof/Machine/Operands.lean ====
section
/-! DEFINITION. Every operand form of the instructions (30_encoding.md R74): zero-extended addresses and registers, the key a
register names, the glyph a register names, decimal digits, and the registers V0..Vx as bytes. -/

namespace Sys2Proof.Machine

/-- zext_16(nnn) (R74). -/
def zextAddr (nnn : Addr12) : Word := nnn.setWidth 16

/-- zext_16(V[x]) (40_flow R104, 43_index_memory R141). -/
def zextByte (b : Byte) : Word := b.setWidth 16

/-- The key a register names: its low nibble (45_input_timers R162, D17). -/
def keyIndex (b : Byte) : Nibble := b.setWidth 4

/-- AnyKeyPressed(): the smallest pressed key at or above k, looking at n keys (45_input_timers R163, D16). -/
def firstPressed (s : State) : Nat → Nat → Option Nibble
  | _, 0 => none
  | k, n + 1 => if s.getKey (BitVec.ofNat 4 k) then some (BitVec.ofNat 4 k) else firstPressed s (k + 1) n

/-- AnyKeyPressed() over the 16 keys (R163). -/
def anyKeyPressed (s : State) : Option Nibble := firstPressed s 0 Config.numKeys

/-- A key number as the byte Fx0A stores, 0x00 to 0x0F (45_input_timers R164). -/
def keyByte (k : Nibble) : Byte := k.setWidth 8

/-- The address of the glyph for the hex digit in the low nibble: FONT_BASE + 5 d (43_index_memory R142, D15). -/
def glyphAddr (b : Byte) : Word := BitVec.ofNat 16 (fontBase + fontGlyphBytes * (b.toNat % 16))

/-- The three decimal digits of a byte, hundreds first (43_index_memory R143). -/
def bcdDigits (b : Byte) : List Byte :=
  [BitVec.ofNat 8 (b.toNat / 100), BitVec.ofNat 8 (b.toNat / 10 % 10), BitVec.ofNat 8 (b.toNat % 10)]

/-- V[0], V[1], ..., V[x] (43_index_memory R144). -/
def regsUpTo (x : Nibble) (s : State) : List Byte := s.v.toList.take (x.toNat + 1)

/-- V[k] <- bytes[0], V[k+1] <- bytes[1], ... (43_index_memory R145). -/
def setRegsFrom : Nat → List Byte → Vector Byte 16 → Vector Byte 16
  | _, [], v => v
  | k, b :: rest, v => setRegsFrom (k + 1) rest (if h : k < 16 then v.set k b h else v)

/-- V[0..] <- bytes (R145). -/
def State.setRegs (s : State) (bytes : List Byte) : State := { s with v := setRegsFrom 0 bytes s.v }

/-- The effective address of an access through I: I itself, an exact number never reduced (20_memory R58, D1). -/
def indexAddr (s : State) : Nat := s.i.toNat

/-- The start column of a sprite: Vx mod 64 (44_display R151, D18). -/
def startColumn (b : Byte) : Nat := b.toNat % Config.dispWidth

/-- The start row of a sprite: Vy mod 32 (44_display R151, D18). -/
def startRow (b : Byte) : Nat := b.toNat % Config.dispHeight

end Sys2Proof.Machine
end

