-- ==== Sys2Proof/Machine/Alu.lean ====
section
/-! DEFINITION. Register loads, arithmetic, logic, shifts and random (42_alu.md). Operands are read from s before any write,
and a flag is written after the result (R120, D9). -/

namespace Sys2Proof.Machine

/-- R121, LD Vx, kk. -/
def execLdImm (x : Nibble) (kk : Byte) (s : State) : Result := .next (s.setV x kk)

/-- R122, ADD Vx, kk: no flag (D11). -/
def execAddImm (x : Nibble) (kk : Byte) (s : State) : Result := .next (s.setV x (addTrunc (s.getV x) kk))

/-- R123, LD Vx, Vy. -/
def execLdReg (x y : Nibble) (s : State) : Result := .next (s.setV x (s.getV y))

/-- R124, OR Vx, Vy: VF is no flag here (D8). -/
def execOrReg (x y : Nibble) (s : State) : Result := .next (s.setV x (s.getV x ||| s.getV y))

/-- R125, AND Vx, Vy (D8). -/
def execAndReg (x y : Nibble) (s : State) : Result := .next (s.setV x (s.getV x &&& s.getV y))

/-- R126, XOR Vx, Vy (D8). -/
def execXorReg (x y : Nibble) (s : State) : Result := .next (s.setV x (s.getV x ^^^ s.getV y))

/-- R127, ADD Vx, Vy: VF = carry. -/
def execAddReg (x y : Nibble) (s : State) : Result :=
  .next (s.setVThenFlag x (addTrunc (s.getV x) (s.getV y)) (carry (s.getV x) (s.getV y)))

/-- R128, SUB Vx, Vy: Vx - Vy, VF = no borrow. -/
def execSubReg (x y : Nibble) (s : State) : Result :=
  .next (s.setVThenFlag x (subTrunc (s.getV x) (s.getV y)) (noBorrow (s.getV x) (s.getV y)))

/-- R129, SHR Vx: the source is Vx, y is ignored (D7). -/
def execShrReg (x _y : Nibble) (s : State) : Result :=
  .next (s.setVThenFlag x (shrOne (s.getV x)) (shrOut (s.getV x)))

/-- R130, SUBN Vx, Vy: Vy - Vx, VF = no borrow. -/
def execSubnReg (x y : Nibble) (s : State) : Result :=
  .next (s.setVThenFlag x (subTrunc (s.getV y) (s.getV x)) (noBorrow (s.getV y) (s.getV x)))

/-- R131, SHL Vx: the source is Vx, y is ignored (D7). -/
def execShlReg (x _y : Nibble) (s : State) : Result :=
  .next (s.setVThenFlag x (shlOne (s.getV x)) (shlOut (s.getV x)))

/-- R132, RND Vx, kk: one draw of the oracle, masked by kk. The draw is a FREE VALUE (log 2). -/
def execRnd (x : Nibble) (kk : Byte) (s : State) : Result := .next (s.countDraw.setV x (s.randomByte &&& kk))

end Sys2Proof.Machine
end

