-- ==== Sys2Proof/Machine/Display.lean ====
section
/-! DEFINITION. The display (44_display.md): CLS and DRW, pixel by pixel as R151's pseudocode. -/

namespace Sys2Proof.Machine

/-- DISP[y][x] (10_state R30): row y, column x; off outside the buffer, where no rule looks. -/
def pixel (d : Display) (y x : Nat) : Bool := if h : y < 32 then (d[y]'h).getLsbD x else false

/-- DISP[y][x] <- DISP[y][x] ^ 1. -/
def togglePixel (d : Display) (y x : Nat) : Display :=
  if h : y < 32 then d.set y ((d[y]'h) ^^^ BitVec.twoPow 64 x) h else d

/-- Every pixel off (R150). -/
def clearDisplay : Display := Vector.replicate 32 0

/-- What a draw carries along: the buffer so far and whether a lit pixel was cleared (R151). -/
structure Drawing where
  disp : Display
  collide : Bool
  deriving DecidableEq, Repr

/-- One set sprite bit: the pixel is toggled, and a lit one collides (R151). -/
def drawPixel (py px : Nat) (d : Drawing) : Drawing :=
  { disp := togglePixel d.disp py px, collide := d.collide || pixel d.disp py px }

/-- Columns c, c+1, ... of one sprite byte, k of them: bit 7 - c of the byte is column c (R151, D18). -/
def drawColumns (b : Byte) (x0 py : Nat) : Nat → Nat → Drawing → Drawing
  | _, 0, d => d
  | c, k + 1, d =>
    drawColumns b x0 py (c + 1) k
      (if b.getLsbD (7 - c) then drawPixel py ((x0 + c) % Config.dispWidth) d else d)

/-- Rows r, r+1, ... of a sprite, one byte each, every row wrapped at the bottom (R151). -/
def drawRows (x0 y0 : Nat) : Nat → List Byte → Drawing → Drawing
  | _, [], d => d
  | r, b :: rest, d => drawRows x0 y0 (r + 1) rest (drawColumns b x0 ((y0 + r) % Config.dispHeight) 0 8 d)

/-- A sprite drawn with its top left pixel at column x0 and row y0 (R151). -/
def drawSprite (rows : List Byte) (x0 y0 : Nat) (disp : Display) : Drawing :=
  drawRows x0 y0 0 rows { disp := disp, collide := false }

/-- R150, CLS. -/
def execCls (s : State) : Result := .next (s.setDisp clearDisplay)

/-- R151, DRW Vx, Vy, n: the coordinates are read before VF is written; n = 0 reads and draws nothing and clears VF (D18). -/
def execDrw (x y n : Nibble) (s : State) : Result :=
  match memRead (indexAddr s) n.toNat s with
  | .error bad => raise (.drw x y n) .addressingFault (some bad) s
  | .ok rows =>
    let drawn := drawSprite rows (startColumn (s.getV x)) (startRow (s.getV y)) s.disp
    .next ((s.setDisp drawn.disp).setFlag drawn.collide)

end Sys2Proof.Machine
end

