-- ==== Sys2Proof/Machine/Flow.lean ====
section
/-! DEFINITION. Control flow (40_flow.md): SYS, RET, JP, CALL, JP V0. In every meaning s.pc is the advanced PC
(30_encoding.md R76). -/

namespace Sys2Proof.Machine

/-- R100, SYS nnn: a no-op (D6); PC keeps its advanced value and nnn is not used. -/
def execSys (_nnn : Addr12) (s : State) : Result := .next s

/-- R101, RET: StackUnderflow on an empty stack, else SP <- SP - 1 and PC <- STACK[SP]. An SP above 16 has no slot to pop
(log 4). -/
def execRet (s : State) : Result :=
  if s.sp = 0 then raise .ret .stackUnderflow none s
  else if h : s.sp.toNat - 1 < Config.stackDepth then .next (s.pop.setPc (s.stack[s.sp.toNat - 1]'h))
  else .refused .stackPointerOutOfRange

/-- R102, JP nnn: PC <- zext_16(nnn). -/
def execJp (nnn : Addr12) (s : State) : Result := .next (s.setPc (zextAddr nnn))

/-- R103, CALL nnn: StackOverflow on a full stack, else push the advanced PC and PC <- zext_16(nnn) (D26). An SP above 16
has no slot to push to (log 4). -/
def execCall (nnn : Addr12) (s : State) : Result :=
  if s.sp = 16 then raise (.call nnn) .stackOverflow none s
  else if h : s.sp.toNat < Config.stackDepth then .next ((s.push s.pc h).setPc (zextAddr nnn))
  else .refused .stackPointerOutOfRange

/-- R104, JP V0, nnn: PC <- zext_16(nnn) + zext_16(V[0]) (D12). -/
def execJpV0 (nnn : Addr12) (s : State) : Result := .next (s.setPc (zextAddr nnn + zextByte (s.getV 0x0)))

end Sys2Proof.Machine
end

