-- ==== Sys2Proof/Machine/Index.lean ====
section
/-! DEFINITION. The index register and memory transfer (43_index_memory.md). A failing address raises AddressingFault and the
instruction leaves no effect (20_memory.md R57). -/

namespace Sys2Proof.Machine

/-- R140, LD I, nnn. -/
def execLdI (nnn : Addr12) (s : State) : Result := .next (s.setI (zextAddr nnn))

/-- R141, ADD I, Vx: modulo 2^16, no flag (D1, D14). -/
def execAddI (x : Nibble) (s : State) : Result := .next (s.setI (s.i + zextByte (s.getV x)))

/-- R142, LD F, Vx. -/
def execLdF (x : Nibble) (s : State) : Result := .next (s.setI (glyphAddr (s.getV x)))

/-- A store through I of the instruction i: MemWrite(I, n, bytes), or AddressingFault at the first failing address. -/
def storeThroughI (i : Instr) (bytes : List Byte) (s : State) : Result :=
  match memWrite (indexAddr s) bytes s with
  | .error bad => raise i .addressingFault (some bad) s
  | .ok t => .next t

/-- R143, LD B, Vx: the three digits at I, I+1, I+2. -/
def execLdB (x : Nibble) (s : State) : Result := storeThroughI (.ldB x) (bcdDigits (s.getV x)) s

/-- R144, LD [I], Vx: V0 to Vx at I, I+1, ...; I is unchanged (D13). -/
def execStoreRegs (x : Nibble) (s : State) : Result := storeThroughI (.storeRegs x) (regsUpTo x s) s

/-- R145, LD Vx, [I]: V0 to Vx from I, I+1, ...; I is unchanged (D13). -/
def execLoadRegs (x : Nibble) (s : State) : Result :=
  match memRead (indexAddr s) (x.toNat + 1) s with
  | .error bad => raise (.loadRegs x) .addressingFault (some bad) s
  | .ok bytes => .next (s.setRegs bytes)

end Sys2Proof.Machine
end

