-- ==== Sys2Proof/Machine/Skip.lean ====
section
/-! DEFINITION. Conditional skips on registers (41_skip.md): SE, SNE. -/

namespace Sys2Proof.Machine

/-- A skip: taken, PC <- trunc_16(PC + 2) on the advanced PC; not taken, PC keeps its advanced value (41_skip, C6). -/
def State.skipIf (c : Bool) (s : State) : State := if c then s.advancePc else s

/-- R110, SE Vx, kk. -/
def execSeImm (x : Nibble) (kk : Byte) (s : State) : Result := .next (s.skipIf (s.getV x == kk))

/-- R111, SNE Vx, kk. -/
def execSneImm (x : Nibble) (kk : Byte) (s : State) : Result := .next (s.skipIf (s.getV x != kk))

/-- R112, SE Vx, Vy. -/
def execSeReg (x y : Nibble) (s : State) : Result := .next (s.skipIf (s.getV x == s.getV y))

/-- R113, SNE Vx, Vy. -/
def execSneReg (x y : Nibble) (s : State) : Result := .next (s.skipIf (s.getV x != s.getV y))

end Sys2Proof.Machine
end

