-- ==== Sys2Proof/Machine/Input.lean ====
section
/-! DEFINITION. Keys and timers (45_input_timers.md). -/

namespace Sys2Proof.Machine

/-- R160, SKP Vx. -/
def execSkp (x : Nibble) (s : State) : Result := .next (s.skipIf (s.getKey (keyIndex (s.getV x))))

/-- R161, SKNP Vx. -/
def execSknp (x : Nibble) (s : State) : Result := .next (s.skipIf (!s.getKey (keyIndex (s.getV x))))

/-- R164, LD Vx, K: with no key pressed PC goes back to the instruction and the step is Waiting (D16); else the lowest
pressed key. -/
def execLdVxK (x : Nibble) (s : State) : Result :=
  match anyKeyPressed s with
  | none => .next s.rewindPc
  | some k => .next (s.setV x (keyByte k))

/-- R166, LD Vx, DT. -/
def execLdVxDT (x : Nibble) (s : State) : Result := .next (s.setV x s.dt)

/-- R167, LD DT, Vx. -/
def execLdDTVx (x : Nibble) (s : State) : Result := .next (s.setDt (s.getV x))

/-- R168, LD ST, Vx. -/
def execLdSTVx (x : Nibble) (s : State) : Result := .next (s.setSt (s.getV x))

end Sys2Proof.Machine
end

