-- ==== Sys2Proof/Machine/Step.lean ====
section
/-! DEFINITION. One step (30_encoding.md R71) in the order of 60_exceptions.md R176: sticky FAULT, fetch, advance, decode,
execute. -/

namespace Sys2Proof.Machine

/-- Step() of 30_encoding R71. A faulted core answers its fault and stays as it is (60_exceptions R173, log 3); a step that
raises a fault answers the next state with FAULT set (R172); an unknown word is a next state (R175). The step's result value
is stepResult in Machine/HostOps.lean. -/
def step (s : State) : Host.Outcome State Fault Refusal :=
  match s.fault with
  | some r => .fault (.faulted r)
  | none =>
    match fetch s with
    | .error a => raiseFetch a s
    | .ok w =>
      match decodeWord w with
      | .error _ => skipUnknown s
      | .ok i => exec i s.advancePc

/-- The state with the instruction of nbits bits w where the next step fetches it: its bytes big-endian at PC and PC + 1,
FAULT none, and PC at 0x200 where the PC was outside what can be fetched (log 6). -/
def State.withFetchWord (s : State) (nbits w : Nat) : State :=
  let word : Word := BitVec.ofNat 16 (w % 2 ^ nbits)
  let pc : Word := if s.pc.toNat + 1 < Config.memSize then s.pc else 0x0200
  let m := Memory.write (Memory.write s.mem pc.toNat (hiByte word)) (pc.toNat + 1) (loByte word)
  { s with mem := m, pc := pc, fault := none }

end Sys2Proof.Machine
end

