-- ==== Sys2Proof/Machine/HostOps.lean ====
section
/-! DEFINITION. The core's ports (60_exceptions.md R186): the result value of a step, tick, reset, power-on, ROM load, keys,
display and sound-gate reads, snapshot and restore (60_exceptions.md sections 1, 5, 6; 70_reset_and_hazards.md), and any
interleaving of them (R181). Each is one function: an atomic operation between steps (20_memory.md R65, D24). -/

namespace Sys2Proof.Machine

/-! ## Error kinds (60_exceptions R170) -/

/-- The six error kinds. -/
inductive ErrorKind where
  | addressingFault
  | stackOverflow
  | stackUnderflow
  | unknownInstruction
  | romTooLarge
  | romUnreadable
  deriving DecidableEq, Repr

/-- What an error does to the run (R170's class column). -/
inductive ErrorClass where
  | fatal
  | recoverable
  | loadTime
  deriving DecidableEq, Repr

/-- The code column of R170 (D32). -/
def errorCode : ErrorKind → Nat
  | .addressingFault => 1
  | .stackOverflow => 2
  | .stackUnderflow => 3
  | .unknownInstruction => 4
  | .romTooLarge => 5
  | .romUnreadable => 6

/-- The class column of R170. -/
def errorClass : ErrorKind → ErrorClass
  | .addressingFault => .fatal
  | .stackOverflow => .fatal
  | .stackUnderflow => .fatal
  | .unknownInstruction => .recoverable
  | .romTooLarge => .loadTime
  | .romUnreadable => .loadTime

/-- A fatal kind as an error kind. -/
def errorOfFault : FaultKind → ErrorKind
  | .addressingFault => .addressingFault
  | .stackOverflow => .stackOverflow
  | .stackUnderflow => .stackUnderflow

/-! ## The result of a step (30_encoding R71, D31) -/

/-- What a step returns to the host. -/
inductive StepResult where
  | executed
  | waiting
  | unknown (w : Word)
  | faulted (record : FaultRecord)
  deriving DecidableEq, Repr

/-- The error a step result reports, if any (R170). -/
def errorOfResult : StepResult → Option ErrorKind
  | .executed => none
  | .waiting => none
  | .unknown _ => some .unknownInstruction
  | .faulted r => some (errorOfFault r.kind)

/-- The instruction is a key wait that finds no key (45_input_timers R164). -/
def waits (i : Instr) (s : State) : Bool :=
  match i with
  | .ldVxK _ => (anyKeyPressed s).isNone
  | _ => false

/-- The result of executing i from the advanced state s, whose FAULT is none; none where exec gives no next state. -/
def execResult (i : Instr) (s : State) : Option StepResult :=
  match exec i s with
  | .next t =>
    match t.fault with
    | some r => some (.faulted r)
    | none => some (if waits i s then .waiting else .executed)
  | .fault _ => none
  | .refused _ => none

/-- What step returns to the host from state s (R71); none only where step is refused (log 4). -/
def stepResult (s : State) : Option StepResult :=
  match s.fault with
  | some r => some (.faulted r)
  | none =>
    match fetch s with
    | .error a => some (.faulted { kind := .addressingFault, pc := s.pc, word := none, addr := some a })
    | .ok w =>
      match decodeWord w with
      | .error _ => some (.unknown w)
      | .ok i => execResult i s.advancePc

/-- The state a step leaves: the next state, or, where it stops, the state it began in (60_exceptions R173, log 3). -/
def stepState (s : State) : State :=
  match step s with
  | .next t => t
  | .fault _ => s
  | .refused _ => s

/-! ## Timers, sound gate, display, keys (60_exceptions sections 5 and 6) -/

/-- One timer's countdown: less 1 where nonzero (R180). -/
def countDown (t : Byte) : Byte := if t = 0 then t else t - 1

/-- Tick(), R180: both timers at once, in every core state (R182). -/
def tick (s : State) : State := { s with dt := countDown s.dt, st := countDown s.st }

/-- The sound gate, R183: ST is not 0. -/
def soundGate (s : State) : Bool := s.st != 0

/-- The display read, R184. -/
def readDisplay (s : State) : Display := s.disp

/-- The host's read of one key, R185; the set-key operation is State.setKey. -/
def readKey (k : Nibble) (s : State) : Bool := s.getKey k

/-- The host's read of any-key, R185, by the rule of 45_input_timers R163. -/
def readAnyKey (s : State) : Option Nibble := anyKeyPressed s

/-! ## Reset, power-on, ROM load (70_reset_and_hazards R200 to R205) -/

/-- Reset(), R200: all but M[0x200-0xFFF], KEY and the oracle's position. -/
def resetMachine (s : State) : State :=
  { mem := Memory.resetReserved s.mem
    v := Vector.replicate 16 0x00
    i := 0x0000
    pc := 0x0200
    sp := 0
    stack := Vector.replicate 16 0x0000
    dt := 0x00
    st := 0x00
    disp := clearDisplay
    key := s.key
    fault := none
    draws := s.draws }

/-- Power-on, R201: every byte 0x00, every key released, then Reset(). -/
def powerOn (s : State) : State :=
  resetMachine { s with mem := Memory.zeroed, key := Vector.replicate 16 false }

/-- What the host's loader hands over: bytes, or its error (R204, D35). -/
inductive RomInput where
  | bytes (rom : List Byte)
  | loaderError
  deriving DecidableEq, Repr

/-- What ROM load returns (R202). -/
inductive LoadResult where
  | ok
  | romTooLarge
  | romUnreadable
  deriving DecidableEq, Repr

/-- LoadRom, R202 to R204: the ROM's bytes at 0x200 and nothing else, or an error and nothing. -/
def loadRom (input : RomInput) (s : State) : LoadResult × State :=
  match input with
  | .loaderError => (.romUnreadable, s)
  | .bytes rom =>
    if Config.romMax < rom.length then (.romTooLarge, s)
    else (.ok, { s with mem := Memory.writeBytes s.mem Config.progStart rom })

/-- Boot, R205: power-on, then ROM load. -/
def boot (input : RomInput) (s : State) : LoadResult × State := loadRom input (powerOn s)

/-! ## Snapshot and restore (70_reset_and_hazards R206, R207) -/

/-- Snapshot, R206: every state element. -/
def snapshot (s : State) : Snapshot :=
  { mem := s.mem, v := s.v, i := s.i, pc := s.pc, sp := s.sp, stack := s.stack, dt := s.dt, st := s.st,
    disp := s.disp, key := s.key, fault := s.fault }

/-- What restore returns. -/
inductive RestoreResult where
  | ok
  | refused
  deriving DecidableEq, Repr

/-- A snapshot that can be restored: SP at most 16 (R207), and the memory written in its canonical form, which every memory
contents has (log 5). -/
def Snapshot.wellFormed (p : Snapshot) : Bool := decide (p.sp.toNat ≤ Config.stackDepth) && Memory.wf p.mem

/-- Restore, R207: every state element as the snapshot holds it; the oracle's position, which is outside the machine, goes on
from where it is (log 2). -/
def restore (p : Snapshot) (s : State) : RestoreResult × State :=
  if p.wellFormed then
    (.ok, { mem := p.mem, v := p.v, i := p.i, pc := p.pc, sp := p.sp, stack := p.stack, dt := p.dt, st := p.st,
            disp := p.disp, key := p.key, fault := p.fault, draws := s.draws })
  else (.refused, s)

/-! ## Any interleaving (60_exceptions R181, 70_reset R211) -/

/-- One operation of R186 that may change the state. -/
inductive HostEvent where
  | step
  | tick
  | reset
  | loadRom (input : RomInput)
  | setKey (k : Nibble) (pressed : Bool)
  | restore (p : Snapshot)
  deriving DecidableEq, Repr

/-- The state an operation leaves. -/
def State.after (e : HostEvent) (s : State) : State :=
  match e with
  | .step => stepState s
  | .tick => Sys2Proof.Machine.tick s
  | .reset => resetMachine s
  | .loadRom input => (Sys2Proof.Machine.loadRom input s).2
  | .setKey k pressed => s.setKey k pressed
  | .restore p => (Sys2Proof.Machine.restore p s).2

/-- The state a sequence of operations leaves, in order: any list is a run of the machine and its host. -/
def State.afterAll : List HostEvent → State → State
  | [], s => s
  | e :: rest, s => State.afterAll rest (s.after e)

end Sys2Proof.Machine
end

