-- ==== Sys2Proof/Safety.lean ====
section
/-! DEFINITION. What counts as a state of the machine and as a good run, in the terms the statements use. -/

namespace Sys2Proof.Machine

/-- The legal states: the memory is in canonical form (so every listed address is in 0x000-0xFFF, 20_memory R50) and the stack
depth never exceeds 16 (10_state R26). -/
def State.Inv (s : State) : Prop := Memory.wf s.mem = true ∧ s.sp.toNat ≤ Config.stackDepth

/-- No fatal fault has happened (60_exceptions R170, 70_reset R212: a Faulted run is a failed run). -/
def State.Good (s : State) : Prop := s.fault = none

/-- A step stops: a fault or a refusal, no next state. -/
def Stops (s : State) : Prop := ∀ t, step s ≠ .next t

/-- The state an outcome gives, if it is a next state. -/
def nextState : Result → Option State
  | .next t => some t
  | .fault _ => none
  | .refused _ => none

/-- The state a fault of the instruction i leaves, written out from 60_exceptions R171 and R172: s is the state its execute
body began in, whose PC is the instruction's address plus 2. -/
def faultEntry (i : Instr) (kind : FaultKind) (addr : Option Nat) (s : State) : State :=
  { s with pc := s.pc - 2, fault := some { kind := kind, pc := s.pc - 2, word := some (encode i), addr := addr } }

/-- a is the first of the addresses base, base + 1, ..., base + n - 1 that ok refuses (20_memory R57, exact sums by R58). -/
def FirstRefused (ok : Nat → Prop) (base n a : Nat) : Prop :=
  base ≤ a ∧ a < base + n ∧ ¬ ok a ∧ ∀ b, base ≤ b → b < a → ok b

/-- An instruction may read address a (20_memory R53, R54). -/
def MayRead (a : Nat) : Prop := a ≤ 0xFFF

/-- An instruction may write address a (20_memory R55, R56). -/
def MayWrite (a : Nat) : Prop := 0x200 ≤ a ∧ a ≤ 0xFFF

/-- The cause and "raised by" columns of 60_exceptions R170 for the executed instruction's own check (R176, point 4), with the
recorded address (R171): the instruction i, executing from state s, has the cause of this fault. -/
def FaultCause (i : Instr) (s : State) : FaultKind → Option Nat → Prop
  | .stackOverflow, addr => addr = none ∧ (∃ nnn, i = .call nnn) ∧ s.sp = 16
  | .stackUnderflow, addr => addr = none ∧ i = .ret ∧ s.sp = 0
  | .addressingFault, addr => ∃ a, addr = some a ∧
      ((∃ x y n, i = .drw x y n ∧ FirstRefused MayRead (indexAddr s) n.toNat a) ∨
       (∃ x, i = .ldB x ∧ FirstRefused MayWrite (indexAddr s) 3 a) ∨
       (∃ x, i = .storeRegs x ∧ FirstRefused MayWrite (indexAddr s) (x.toNat + 1) a) ∨
       (∃ x, i = .loadRegs x ∧ FirstRefused MayRead (indexAddr s) (x.toNat + 1) a))

/-- A sprite bit of DRW Vx, Vy, n falls on row and col of the display and is set (44_display R151): byte r is read from I + r,
bit 7 - c is column c, and both coordinates wrap. -/
def SpriteCovers (s : State) (x y n : Nibble) (row col : Nat) : Prop :=
  ∃ r c, r < n.toNat ∧ c < 8 ∧ row = (startRow (s.getV y) + r) % 32 ∧ col = (startColumn (s.getV x) + c) % 64 ∧
    (Memory.read s.mem (indexAddr s + r)).getLsbD (7 - c) = true

/-- The "writes" column of 10_state R23: the instruction may write register j. -/
def mayWriteV (i : Instr) (j : Nibble) : Bool :=
  match i with
  | .sys _ => false
  | .cls => false
  | .ret => false
  | .jp _ => false
  | .call _ => false
  | .seImm _ _ => false
  | .sneImm _ _ => false
  | .seReg _ _ => false
  | .ldImm x _ => j == x
  | .addImm x _ => j == x
  | .ldReg x _ => j == x
  | .orReg x _ => j == x
  | .andReg x _ => j == x
  | .xorReg x _ => j == x
  | .addReg x _ => j == x || j == 0xF
  | .subReg x _ => j == x || j == 0xF
  | .shrReg x _ => j == x || j == 0xF
  | .subnReg x _ => j == x || j == 0xF
  | .shlReg x _ => j == x || j == 0xF
  | .sneReg _ _ => false
  | .ldI _ => false
  | .jpV0 _ => false
  | .rnd x _ => j == x
  | .drw _ _ _ => j == 0xF
  | .skp _ => false
  | .sknp _ => false
  | .ldVxDT x => j == x
  | .ldVxK x => j == x
  | .ldDTVx _ => false
  | .ldSTVx _ => false
  | .addI _ => false
  | .ldF _ => false
  | .ldB _ => false
  | .storeRegs _ => false
  | .loadRegs x => decide (j.toNat ≤ x.toNat)

end Sys2Proof.Machine
end

