-- ==== Sys2Proof/Certificates/Slice0/Obligations.lean ====
section
/-! DEFINITION. The statements for the provers. Each docstring says which rule of spec/ it formalises. In a statement about
exec, s is the state the execute body begins in: its pc is the advanced PC (30_encoding.md R76). A statement resting on a
choice of the spec's (a decision D<n> of 92_eei_decisions.md) or of the model's (a log entry) names it. -/

open Sys2Proof Sys2Proof.Machine

/-! ## Encoding -/

/-- 30_encoding R77, R78: one word of each family decodes to the instruction its pattern stands for. -/
def Obligations.SampleWordsDecode : Prop :=
  decodeWord 0b0000000011101110#16 = .ok .ret ∧
  decodeWord 0b0000000100100011#16 = .ok (.sys 0x123) ∧
  decodeWord 0b0010001000001000#16 = .ok (.call 0x208) ∧
  decodeWord 0b0101001101000000#16 = .ok (.seReg 0x3 0x4) ∧
  decodeWord 0b1000000100100110#16 = .ok (.shrReg 0x1 0x2) ∧
  decodeWord 0b1100001100001111#16 = .ok (.rnd 0x3 0x0F) ∧
  decodeWord 0b1101000100100101#16 = .ok (.drw 0x1 0x2 0x5) ∧
  decodeWord 0b1110000110100001#16 = .ok (.sknp 0x1) ∧
  decodeWord 0b1111001001100101#16 = .ok (.loadRegs 0x2) ∧
  decodeWord 0b1111001100001010#16 = .ok (.ldVxK 0x3) ∧
  decodeWord 0b0101001101000001#16 = .error (.unknown 0x5341)

/-- 30_encoding R77, R78: every well-formed instruction, every operand at every value, decodes from the word and from the bytes
it encodes to, whatever bytes follow. -/
def Obligations.DecodeOfEncode : Prop :=
  ∀ i : Instr, i.wellFormed = true →
    decodeWord (encode i) = .ok i ∧ ∀ rest, decodeBytes (encodeBytes i ++ rest) = .ok (i, rest)

/-- 30_encoding R70, R75, R77: a word that decodes is the word of the instruction it decodes to, so no bit is dropped, and that
instruction is well-formed. -/
def Obligations.EncodeOfDecode : Prop :=
  ∀ (w : Word) (i : Instr), decodeWord w = .ok i → encode i = w ∧ i.wellFormed = true

/-- 30_encoding R79: the Unknown words are exactly the five listed sets, and a refused word is refused by its own name. -/
def Obligations.UnknownWordsAreTheListedOnes : Prop :=
  ∀ w : Word,
    ((∃ e, decodeWord w = .error e) ↔
      (fieldOp w = 0x5 ∧ fieldN w ≠ 0) ∨
      (fieldOp w = 0x8 ∧ fieldN w ∈ [0x8, 0x9, 0xA, 0xB, 0xC, 0xD, 0xF]) ∨
      (fieldOp w = 0x9 ∧ fieldN w ≠ 0) ∨
      (fieldOp w = 0xE ∧ fieldKK w ∉ [0x9E, 0xA1]) ∨
      (fieldOp w = 0xF ∧ fieldKK w ∉ [0x07, 0x0A, 0x15, 0x18, 0x1E, 0x29, 0x33, 0x55, 0x65])) ∧
    ∀ e, decodeWord w = .error e → e = .unknown w

/-- 30_encoding R78: a decoded word lies in its instruction's row of mask and match and in no other row, but that the words of
CLS and RET also fit row 1. -/
def Obligations.DecodedWordFitsOneRow : Prop :=
  ∀ (w : Word) (i : Instr), decodeWord w = .ok i →
    i.row.covers w = true ∧
      ∀ j : Instr, j.row.covers w = true → j.row = i.row ∨ (j.row = rowSys ∧ (i.row = rowCls ∨ i.row = rowRet))

/-! ## The step -/

/-- 30_encoding R71, R76, 20_memory R60: when the two bytes at PC, big-endian, decode to i and no fault is set, step is exec of
i on the state with PC advanced by 2. -/
def Obligations.StepRunsDecodedInstruction : Prop :=
  ∀ (s : State) (i : Instr), s.fault = none → s.pc.toNat + 1 ≤ 0xFFF →
    decodeWord (wordOfBytes (Memory.read s.mem s.pc.toNat) (Memory.read s.mem (s.pc.toNat + 1))) = .ok i →
    step s = exec i { s with pc := s.pc + 2 }

/-- 60_exceptions R175: an Unknown word advances PC by 2, changes nothing else, and is reported. -/
def Obligations.UnknownWordOnlyAdvancesPc : Prop :=
  ∀ (s : State) (w : Word) (e : DecodeError), s.fault = none → fetch s = .ok w → decodeWord w = .error e →
    step s = .next { s with pc := s.pc + 2 } ∧ stepResult s = some (.unknown w)

/-- 30_encoding R71, 20_memory R58, D30: a fetch whose first or second byte lies above 0xFFF raises AddressingFault with no word,
at PC if PC is above 0xFFF and else at PC + 1; nothing else changes. -/
def Obligations.FetchOutsideMemoryFaults : Prop :=
  ∀ s : State, s.fault = none → 0xFFF ≤ s.pc.toNat →
    step s = .next { s with fault := some { kind := .addressingFault, pc := s.pc, word := none,
                                            addr := some (if s.pc.toNat = 0xFFF then 0x1000 else s.pc.toNat) } }

/-- 60_exceptions R173: a step of a faulted core returns the fault and changes no state; only reset, or a restore of a snapshot
whose FAULT is none, sets FAULT to none; tick, set key and the reads act on a faulted core. -/
def Obligations.FaultIsSticky : Prop :=
  ∀ (s : State) (r : FaultRecord), s.fault = some r →
    (stepResult s = some (.faulted r) ∧ s.after .step = s) ∧
    (s.after .reset).fault = none ∧
    (∀ e, (s.after e).fault = none → e = .reset ∨ ∃ p, e = .restore p ∧ p.fault = none) ∧
    (∀ p : Snapshot, p.wellFormed = true → (s.after (.restore p)).fault = p.fault) ∧
    s.after .tick = { s with dt := countDown s.dt, st := countDown s.st } ∧
    (∀ k pressed, s.after (.setKey k pressed) = { s with key := s.key.set k.toNat pressed k.isLt }) ∧
    readDisplay s = s.disp ∧ (soundGate s = true ↔ s.st ≠ 0)

/-- The model's reading of 60_exceptions R173 in the host's three outcomes (log 3, DESIGN CHOICE): on a faulted core, and on no
other state, step answers the outcome fault, with the record. -/
def Obligations.StepStopsExactlyOnFaultedCore : Prop :=
  ∀ (s : State) (r : FaultRecord), step s = .fault (.faulted r) ↔ s.fault = some r

/-- 60_exceptions R171, R172 (D4): a step that raises a fault leaves the state of its start with FAULT set; the record holds the
instruction's own address, the word that was fetched, or none where the fetch failed, and an address exactly for an
AddressingFault; the step returns it. -/
def Obligations.FaultsArePrecise : Prop :=
  ∀ (s t : State) (r : FaultRecord), s.fault = none → step s = .next t → t.fault = some r →
    t = { s with fault := some r } ∧ r.pc = s.pc ∧ stepResult s = some (.faulted r) ∧
    (∀ w, fetch s = .ok w → r.word = some w) ∧ (∀ a, fetch s = .error a → r.word = none ∧ r.addr = some a) ∧
    (r.addr = none ↔ r.kind ≠ .addressingFault)

/-- 60_exceptions R170, R171, R176, 20_memory R57 (D3, D33): an instruction raises a fault exactly where it has that fault's
cause. CALL raises StackOverflow at 16 entries, RET StackUnderflow at none, and DRW, LD B, LD [I] and LD Vx, [I] raise
AddressingFault, with the address recorded, exactly where some address of their access cannot be read, or written, at the first
such address. No other instruction raises a fault. -/
def Obligations.FaultCauses : Prop :=
  (∀ (i : Instr) (s t : State) (r : FaultRecord), s.fault = none → exec i s = .next t → t.fault = some r →
    FaultCause i s r.kind r.addr) ∧
  (∀ (i : Instr) (s : State) (kind : FaultKind) (addr : Option Nat), FaultCause i s kind addr →
    exec i s = .next (faultEntry i kind addr s))

/-- 30_encoding R71, 60_exceptions R172, R175: from a legal state whose FAULT is none, step answers a next state and a step result.
Either no fault was raised, and the result is not Faulted, or one was: then every effect is discarded, the next state is the one
the step began in with FAULT set, and the result is Faulted with that record. That a raising step counts as a next state in the
host's three outcomes is the model's choice (log 3, DESIGN CHOICE); the statement does not say that the instruction had its own
effect. -/
def Obligations.UnfaultedStepAnswersNextState : Prop :=
  ∀ s : State, s.Inv → s.fault = none → ∃ t res, step s = .next t ∧ stepResult s = some res ∧
    ((t.fault = none ∧ ∀ r, res ≠ .faulted r) ∨ ∃ r, t = { s with fault := some r } ∧ res = .faulted r)

/-! ## Invariants -/

/-- 10_state R26, 20_memory R50: every step keeps the memory in canonical form and the stack depth at most 16. -/
def Obligations.StepKeepsInv : Prop :=
  ∀ s t : State, s.Inv → step s = .next t → t.Inv

/-- 10_state R37: the state right after power-on is legal. -/
def Obligations.PowerOnStateHasInv : Prop := State.reset.Inv

/-- 60_exceptions R181, R186: every interleaving of steps and host operations keeps the state legal. -/
def Obligations.EveryRunKeepsInv : Prop :=
  ∀ (es : List HostEvent) (s : State), s.Inv → (State.afterAll es s).Inv

/-- 20_memory R51, R56 (D3): no step changes a byte of the reserved region 0x000-0x1FF. -/
def Obligations.NoStepWritesReservedRegion : Prop :=
  ∀ (s t : State) (a : Nat), step s = .next t → a ≤ 0x1FF → Memory.read t.mem a = Memory.read s.mem a

/-! ## Who writes what -/

/-- 10_state R32: no instruction writes KEY. -/
def Obligations.NoInstructionWritesKeys : Prop :=
  ∀ (i : Instr) (s t : State), exec i s = .next t → t.key = s.key

/-- 10_state R30: among instructions, only CLS and DRW change DISP. -/
def Obligations.OnlyClsAndDrwChangeDisplay : Prop :=
  ∀ (i : Instr) (s t : State), exec i s = .next t → t.disp ≠ s.disp → i = .cls ∨ ∃ x y n, i = .drw x y n

/-- 20_memory R51, R61: only Fx33 and Fx55 change memory, and only the bytes at I, I+1, I+2, or at I to I+x. -/
def Obligations.OnlyStoresChangeMemory : Prop :=
  ∀ (i : Instr) (s t : State) (a : Nat), exec i s = .next t → Memory.read t.mem a ≠ Memory.read s.mem a →
    (∃ x, i = .ldB x ∧ indexAddr s ≤ a ∧ a ≤ indexAddr s + 2) ∨
    (∃ x : Nibble, i = .storeRegs x ∧ indexAddr s ≤ a ∧ a ≤ indexAddr s + x.toNat)

/-- 10_state R26, R27: only CALL and RET change SP, and only CALL changes a slot, the one at SP. -/
def Obligations.OnlyCallAndRetChangeStack : Prop :=
  ∀ (i : Instr) (s t : State), exec i s = .next t →
    (t.sp ≠ s.sp → i = .ret ∨ ∃ nnn, i = .call nnn) ∧
    ∀ (k : Nat) (h : k < 16), t.stack[k] ≠ s.stack[k] → (∃ nnn, i = .call nnn) ∧ k = s.sp.toNat

/-- 10_state R24, R28, R29, R33: only Annn, Fx1E and Fx29 change I, only Fx15 changes DT, only Fx18 changes ST. -/
def Obligations.OnlyTheirLoadsChangeIndexAndTimers : Prop :=
  ∀ (i : Instr) (s t : State), exec i s = .next t →
    (t.i ≠ s.i → (∃ nnn, i = .ldI nnn) ∨ (∃ x, i = .addI x) ∨ ∃ x, i = .ldF x) ∧
    (t.dt ≠ s.dt → ∃ x, i = .ldDTVx x) ∧ (t.st ≠ s.st → ∃ x, i = .ldSTVx x)

/-- 10_state R23: an instruction changes no V register outside its "writes" column. -/
def Obligations.RegistersChangeOnlyAsListed : Prop :=
  ∀ (i : Instr) (s t : State) (j : Nibble), exec i s = .next t → mayWriteV i j = false → t.getV j = s.getV j

/-! ## Control flow -/

/-- 40_flow R100 (D6): SYS changes nothing beyond the advance of PC. -/
def Obligations.SysIsNoOp : Prop :=
  ∀ (nnn : Addr12) (s : State), exec (.sys nnn) s = .next s

/-- 40_flow R102: JP sets PC to the address and changes nothing else; a jump to its own address is a fixed point; after a jump to
0xFFF the next step faults at its fetch, and after a jump to any other address, odd or reserved or not, the two bytes there are
fetched. -/
def Obligations.JumpSetsPc : Prop :=
  ∀ (nnn : Addr12) (s : State),
    exec (.jp nnn) s = .next { s with pc := BitVec.ofNat 16 nnn.toNat } ∧
    (s.fault = none → fetch s = .ok (encode (.jp nnn)) → s.pc.toNat = nnn.toNat → step s = .next s) ∧
    (s.fault = none → nnn = 0xFFF →
      step { s with pc := BitVec.ofNat 16 nnn.toNat } =
        .next { s with pc := 0xFFF, fault := some { kind := .addressingFault, pc := 0xFFF, word := none, addr := some 0x1000 } }) ∧
    (nnn ≠ 0xFFF → fetch { s with pc := BitVec.ofNat 16 nnn.toNat } =
      .ok (wordOfBytes (Memory.read s.mem nnn.toNat) (Memory.read s.mem (nnn.toNat + 1))))

/-- 40_flow R104 (D12): JP V0 sets PC to the exact sum of the address and V0 and changes nothing else. -/
def Obligations.JumpOffsetAddsV0 : Prop :=
  ∀ (nnn : Addr12) (s : State), ∃ p : Word,
    exec (.jpV0 nnn) s = .next { s with pc := p } ∧ p.toNat = nnn.toNat + (s.getV 0x0).toNat

/-- 40_flow R103 (D26): with fewer than 16 entries CALL pushes the advanced PC, adds 1 to SP and jumps; with 16 it raises
StackOverflow and leaves no effect. An SP above 16, which no run reaches, is
refused by name (the model's choice, log 4). -/
def Obligations.CallPushesOrOverflows : Prop :=
  ∀ (nnn : Addr12) (s : State),
    (∀ h : s.sp.toNat < 16, exec (.call nnn) s =
      .next { s with stack := s.stack.set s.sp.toNat s.pc h, sp := s.sp + 1, pc := BitVec.ofNat 16 nnn.toNat }) ∧
    (s.sp = 16 → exec (.call nnn) s = .next (faultEntry (.call nnn) .stackOverflow none s)) ∧
    (16 < s.sp.toNat → exec (.call nnn) s = .refused .stackPointerOutOfRange)

/-- 40_flow R101: with 1 to 16 entries RET takes 1 from SP and loads PC from the top slot, which keeps its value; with none it
raises StackUnderflow and leaves no effect. An SP above 16, which no run reaches, is
refused by name (the model's choice, log 4). -/
def Obligations.ReturnPopsOrUnderflows : Prop :=
  ∀ s : State,
    (∀ (_ : 0 < s.sp.toNat) (h : s.sp.toNat - 1 < 16), exec .ret s =
      .next { s with sp := s.sp - 1, pc := s.stack[s.sp.toNat - 1] }) ∧
    (s.sp = 0 → exec .ret s = .next (faultEntry .ret .stackUnderflow none s)) ∧
    (16 < s.sp.toNat → exec .ret s = .refused .stackPointerOutOfRange)

/-- 40_flow R101, R103, 10_state R26, R27 (D26): a RET in any state that still has the stack a CALL left goes to the address after
the CALL, with the depth before it. -/
def Obligations.ReturnUndoesCall : Prop :=
  ∀ (nnn : Addr12) (s t u : State), s.sp.toNat < 16 → exec (.call nnn) s = .next t → u.sp = t.sp → u.stack = t.stack →
    ∃ r, exec .ret u = .next r ∧ r.pc = s.pc ∧ r.sp = s.sp ∧
      ∀ (k : Nat) (h : k < s.sp.toNat) (hk : k < 16), r.stack[k] = s.stack[k]

/-! ## Skips -/

/-- 41_skip R110 to R113: a skip whose condition holds adds 2 to the advanced PC, one whose condition fails leaves it; nothing else
changes, and no memory is read. Where a taken skip goes to 0xFFF or above, the next fetch fails. -/
def Obligations.SkipsCompare : Prop :=
  ∀ (x y : Nibble) (kk : Byte) (s : State),
    exec (.seImm x kk) s = .next { s with pc := if s.getV x = kk then s.pc + 2 else s.pc } ∧
    exec (.sneImm x kk) s = .next { s with pc := if s.getV x ≠ kk then s.pc + 2 else s.pc } ∧
    exec (.seReg x y) s = .next { s with pc := if s.getV x = s.getV y then s.pc + 2 else s.pc } ∧
    exec (.sneReg x y) s = .next { s with pc := if s.getV x ≠ s.getV y then s.pc + 2 else s.pc } ∧
    (0xFFF ≤ (s.pc + 2).toNat → ∃ a, fetch { s with pc := s.pc + 2 } = .error a)

/-- 45_input_timers R160, R161, R162 (D17): SKP skips where the key in the low nibble of Vx is pressed, SKNP where it is not;
nothing but PC changes. -/
def Obligations.KeySkipsReadOneKey : Prop :=
  ∀ (x : Nibble) (s : State) (k : Nibble), k.toNat = (s.getV x).toNat % 16 →
    exec (.skp x) s = .next { s with pc := if s.getKey k = true then s.pc + 2 else s.pc } ∧
    exec (.sknp x) s = .next { s with pc := if s.getKey k = false then s.pc + 2 else s.pc }

/-! ## Registers and arithmetic -/

/-- 42_alu R121, R123: LD Vx, kk and LD Vx, Vy put the value into Vx and change nothing else, VF included unless x is F. -/
def Obligations.LoadsMoveTheValue : Prop :=
  ∀ (x y : Nibble) (kk : Byte) (s : State),
    (∃ t, exec (.ldImm x kk) s = .next t ∧ t.getV x = kk ∧ (∀ j, j ≠ x → t.getV j = s.getV j) ∧ { t with v := s.v } = s) ∧
    (∃ t, exec (.ldReg x y) s = .next t ∧ t.getV x = s.getV y ∧ (∀ j, j ≠ x → t.getV j = s.getV j) ∧ { t with v := s.v } = s)

/-- 42_alu R122, R124, R125, R126 (D8, D11): the immediate add is modulo 256 and, like OR, AND and XOR, writes Vx and no flag. -/
def Obligations.AddImmediateAndLogicWriteNoFlag : Prop :=
  ∀ (x y : Nibble) (kk : Byte) (s : State),
    (∃ t, exec (.addImm x kk) s = .next t ∧ (t.getV x).toNat = ((s.getV x).toNat + kk.toNat) % 256 ∧
      (∀ j, j ≠ x → t.getV j = s.getV j) ∧ { t with v := s.v } = s) ∧
    (∃ t, exec (.orReg x y) s = .next t ∧ t.getV x = s.getV x ||| s.getV y ∧
      (∀ j, j ≠ x → t.getV j = s.getV j) ∧ { t with v := s.v } = s) ∧
    (∃ t, exec (.andReg x y) s = .next t ∧ t.getV x = s.getV x &&& s.getV y ∧
      (∀ j, j ≠ x → t.getV j = s.getV j) ∧ { t with v := s.v } = s) ∧
    (∃ t, exec (.xorReg x y) s = .next t ∧ t.getV x = s.getV x ^^^ s.getV y ∧
      (∀ j, j ≠ x → t.getV j = s.getV j) ∧ { t with v := s.v } = s)

/-- 42_alu R127: ADD Vx, Vy puts the sum modulo 256 into Vx and then the carry into VF, so that x = F ends with the carry; both
operands are read before. -/
def Obligations.AddSetsCarry : Prop :=
  ∀ (x y : Nibble) (s : State), ∃ t, exec (.addReg x y) s = .next t ∧
    t.getV 0xF = (if 0xFF < (s.getV x).toNat + (s.getV y).toNat then 1 else 0) ∧
    (x ≠ 0xF → (t.getV x).toNat = ((s.getV x).toNat + (s.getV y).toNat) % 256) ∧
    (∀ j, j ≠ x → j ≠ 0xF → t.getV j = s.getV j) ∧ { t with v := s.v } = s

/-- 42_alu R128, R130 (D9, D10): SUB and SUBN put the difference modulo 256 into Vx and then 1 into VF exactly where the minuend is
at least the subtrahend. -/
def Obligations.SubtractionsSetNoBorrow : Prop :=
  ∀ (x y : Nibble) (s : State),
    (∃ t, exec (.subReg x y) s = .next t ∧
      t.getV 0xF = (if (s.getV y).toNat ≤ (s.getV x).toNat then 1 else 0) ∧
      (x ≠ 0xF → ((t.getV x).toNat : Int) = ((s.getV x).toNat - (s.getV y).toNat : Int) % 256) ∧
      (∀ j, j ≠ x → j ≠ 0xF → t.getV j = s.getV j) ∧ { t with v := s.v } = s) ∧
    (∃ t, exec (.subnReg x y) s = .next t ∧
      t.getV 0xF = (if (s.getV x).toNat ≤ (s.getV y).toNat then 1 else 0) ∧
      (x ≠ 0xF → ((t.getV x).toNat : Int) = ((s.getV y).toNat - (s.getV x).toNat : Int) % 256) ∧
      (∀ j, j ≠ x → j ≠ 0xF → t.getV j = s.getV j) ∧ { t with v := s.v } = s)

/-- 42_alu R129, R131 (D7, D9): SHR and SHL shift Vx by one place, whatever y is, and then put the bit shifted out into VF. -/
def Obligations.ShiftsSetTheBitShiftedOut : Prop :=
  ∀ (x y : Nibble) (s : State),
    (∃ t, exec (.shrReg x y) s = .next t ∧ (t.getV 0xF).toNat = (s.getV x).toNat % 2 ∧
      (x ≠ 0xF → (t.getV x).toNat = (s.getV x).toNat / 2) ∧
      (∀ j, j ≠ x → j ≠ 0xF → t.getV j = s.getV j) ∧ { t with v := s.v } = s) ∧
    (∃ t, exec (.shlReg x y) s = .next t ∧ (t.getV 0xF).toNat = (s.getV x).toNat / 128 ∧
      (x ≠ 0xF → (t.getV x).toNat = 2 * (s.getV x).toNat % 256) ∧
      (∀ j, j ≠ x → j ≠ 0xF → t.getV j = s.getV j) ∧ { t with v := s.v } = s)

/-- 42_alu R132 (D19): RND makes one draw and puts it, masked by kk, into Vx. The draw is the model's free value (log 2); the
statement holds for every draw and every count of draws. -/
def Obligations.RandomIsOneMaskedDraw : Prop :=
  ∀ (x : Nibble) (kk : Byte) (s : State), ∃ t, exec (.rnd x kk) s = .next t ∧
    t.getV x = s.randomByte &&& kk ∧ t.draws = s.draws + 1 ∧ (∀ j, j ≠ x → t.getV j = s.getV j) ∧
    { t with v := s.v, draws := s.draws } = s

/-! ## Index and memory -/

/-- 43_index_memory R140: LD I, nnn sets I to the address and changes nothing else. -/
def Obligations.LoadIndexSetsI : Prop :=
  ∀ (nnn : Addr12) (s : State), ∃ a : Word, exec (.ldI nnn) s = .next { s with i := a } ∧ a.toNat = nnn.toNat

/-- 43_index_memory R141 (D1, D14): ADD I, Vx adds modulo 2^16, with no 12-bit mask and no flag. -/
def Obligations.AddIndexWraps : Prop :=
  ∀ (x : Nibble) (s : State), ∃ a : Word, exec (.addI x) s = .next { s with i := a } ∧
    a.toNat = (s.i.toNat + (s.getV x).toNat) % 65536

/-- 43_index_memory R142, 20_memory R52, R59 (D15): LD F, Vx points I at the glyph of the low nibble of Vx, and on a memory whose
reserved region is as reset leaves it the five bytes there are that glyph's. -/
def Obligations.FontIndexPointsAtGlyph : Prop :=
  ∀ (x : Nibble) (s : State), ∃ a : Word, exec (.ldF x) s = .next { s with i := a } ∧
    a.toNat = 0x050 + 5 * ((s.getV x).toNat % 16) ∧
    ∀ k < 5, Memory.read (resetMachine s).mem (a.toNat + k) = font.getD (5 * ((s.getV x).toNat % 16) + k) 0

/-- 43_index_memory R143, 20_memory R55 to R57: LD B, Vx stores the hundreds, tens and units digit at I, I+1, I+2, every other byte
and everything else unchanged; where one of the three addresses cannot be written it raises AddressingFault at the first
such address and leaves no effect. -/
def Obligations.BcdStoresThreeDigits : Prop :=
  ∀ (x : Nibble) (s : State), s.Inv →
    (0x200 ≤ indexAddr s → indexAddr s + 2 ≤ 0xFFF → ∃ t, exec (.ldB x) s = .next t ∧
      (Memory.read t.mem (indexAddr s)).toNat = (s.getV x).toNat / 100 ∧
      (Memory.read t.mem (indexAddr s + 1)).toNat = (s.getV x).toNat / 10 % 10 ∧
      (Memory.read t.mem (indexAddr s + 2)).toNat = (s.getV x).toNat % 10 ∧
      (∀ a, (a < indexAddr s ∨ indexAddr s + 2 < a) → Memory.read t.mem a = Memory.read s.mem a) ∧
      { t with mem := s.mem } = s) ∧
    (indexAddr s < 0x200 → exec (.ldB x) s = .next (faultEntry (.ldB x) .addressingFault (some (indexAddr s)) s)) ∧
    (0xFFF < indexAddr s + 2 → 0x200 ≤ indexAddr s →
      exec (.ldB x) s = .next (faultEntry (.ldB x) .addressingFault (some (max (indexAddr s) 0x1000)) s))

/-- 43_index_memory R144, 20_memory R55 to R57 (D3, D13): LD [I], Vx stores V0 to Vx at I to I+x, I and every other byte unchanged; where
one of these addresses cannot be written it raises AddressingFault at the first such address and leaves no effect. -/
def Obligations.BlockStoreWritesRegisters : Prop :=
  ∀ (x : Nibble) (s : State), s.Inv →
    (0x200 ≤ indexAddr s → indexAddr s + x.toNat ≤ 0xFFF → ∃ t, exec (.storeRegs x) s = .next t ∧
      (∀ j : Nibble, j.toNat ≤ x.toNat → Memory.read t.mem (indexAddr s + j.toNat) = s.getV j) ∧
      (∀ a, (a < indexAddr s ∨ indexAddr s + x.toNat < a) → Memory.read t.mem a = Memory.read s.mem a) ∧
      { t with mem := s.mem } = s) ∧
    (indexAddr s < 0x200 →
      exec (.storeRegs x) s = .next (faultEntry (.storeRegs x) .addressingFault (some (indexAddr s)) s)) ∧
    (0xFFF < indexAddr s + x.toNat → 0x200 ≤ indexAddr s →
      exec (.storeRegs x) s = .next (faultEntry (.storeRegs x) .addressingFault (some (max (indexAddr s) 0x1000)) s))

/-- 43_index_memory R145, 20_memory R53, R54, R57 (D13): LD Vx, [I] loads V0 to Vx from I to I+x, the reserved region allowed, I and the
registers above Vx unchanged; where one of these addresses is above 0xFFF it raises AddressingFault at the first such
address and leaves no effect. -/
def Obligations.BlockLoadReadsRegisters : Prop :=
  ∀ (x : Nibble) (s : State),
    (indexAddr s + x.toNat ≤ 0xFFF → ∃ t, exec (.loadRegs x) s = .next t ∧
      (∀ j : Nibble, j.toNat ≤ x.toNat → t.getV j = Memory.read s.mem (indexAddr s + j.toNat)) ∧
      (∀ j : Nibble, x.toNat < j.toNat → t.getV j = s.getV j) ∧ { t with v := s.v } = s) ∧
    (0xFFF < indexAddr s + x.toNat →
      exec (.loadRegs x) s = .next (faultEntry (.loadRegs x) .addressingFault (some (max (indexAddr s) 0x1000)) s))

/-- 20_memory R67, 70_reset R210 (D37): a block store over the bytes at the advanced PC is what the next fetch reads. -/
def Obligations.StoreIsSeenByNextFetch : Prop :=
  ∀ (x : Nibble) (s t : State), s.Inv → 1 ≤ x.toNat → indexAddr s = s.pc.toNat → 0x200 ≤ s.pc.toNat →
    s.pc.toNat + x.toNat ≤ 0xFFF → exec (.storeRegs x) s = .next t →
    fetch t = .ok (wordOfBytes (s.getV 0x0) (s.getV 0x1))

/-! ## Display -/

/-- 44_display R150: CLS turns every pixel off and changes nothing else, VF included. -/
def Obligations.ClearTurnsEveryPixelOff : Prop :=
  ∀ s : State, ∃ t, exec .cls s = .next t ∧ (∀ row col, pixel t.disp row col = false) ∧ { t with disp := s.disp } = s

/-- 44_display R151 (D18): where the n sprite bytes can be read, or n is 0, DRW toggles exactly the pixels a set sprite bit falls on, with
wrap in both directions, sets VF to 1 exactly where one of these was on before, and changes nothing else. -/
def Obligations.DrawTogglesSpritePixels : Prop :=
  ∀ (x y n : Nibble) (s : State), (n = 0 ∨ indexAddr s + n.toNat ≤ 0x1000) →
    ∃ t, exec (.drw x y n) s = .next t ∧
      (∀ row col, row < 32 → col < 64 →
        (pixel t.disp row col = true ↔ ¬ (pixel s.disp row col = true ↔ SpriteCovers s x y n row col))) ∧
      ((t.getV 0xF = 1 ∧ ∃ row col, SpriteCovers s x y n row col ∧ pixel s.disp row col = true) ∨
        (t.getV 0xF = 0 ∧ ∀ row col, SpriteCovers s x y n row col → pixel s.disp row col = false)) ∧
      (∀ j, j ≠ 0xF → t.getV j = s.getV j) ∧ { t with disp := s.disp, v := s.v } = s

/-- 44_display R151, 20_memory R53, R57: where a sprite byte lies above 0xFFF, DRW raises AddressingFault at the first such address, and
nothing is drawn. -/
def Obligations.DrawOutsideMemoryFaults : Prop :=
  ∀ (x y n : Nibble) (s : State), n ≠ 0 → 0x1000 < indexAddr s + n.toNat →
    exec (.drw x y n) s = .next (faultEntry (.drw x y n) .addressingFault (some (max (indexAddr s) 0x1000)) s)

/-- 44_display R151, the worked example W3 of 95 in general: drawing the same sprite again at the same place restores the display, where
the coordinates are not in VF. -/
def Obligations.DrawingTwiceRestoresDisplay : Prop :=
  ∀ (x y n : Nibble) (s t u : State), x ≠ 0xF → y ≠ 0xF → (n = 0 ∨ indexAddr s + n.toNat ≤ 0x1000) →
    exec (.drw x y n) s = .next t → exec (.drw x y n) t = .next u → u.disp = s.disp

/-! ## Keys and timers -/

/-- 45_input_timers R165: at an Fx0A with no key pressed a step leaves the whole state unchanged; with a key pressed the step advances PC
by 2, once. -/
def Obligations.KeyWaitContract : Prop :=
  ∀ (x : Nibble) (s : State), s.fault = none → fetch s = .ok (encode (.ldVxK x)) →
    ((∀ k, s.getKey k = false) → step s = .next s ∧ stepResult s = some .waiting) ∧
    ((∃ k, s.getKey k = true) → ∃ t, step s = .next t ∧ t.pc = s.pc + 2 ∧ stepResult s = some .executed)

/-- 45_input_timers R163, R164 (D16): with a key pressed Fx0A stores the lowest-numbered pressed key in Vx and changes nothing else; with
none it sets PC back by 2 and changes nothing else. -/
def Obligations.KeyWaitStoresLowestKey : Prop :=
  ∀ (x : Nibble) (s : State),
    (∀ k : Nibble, s.getKey k = true → (∀ j : Nibble, j.toNat < k.toNat → s.getKey j = false) →
      ∃ t, exec (.ldVxK x) s = .next t ∧ (t.getV x).toNat = k.toNat ∧ (∀ j, j ≠ x → t.getV j = s.getV j) ∧
        { t with v := s.v } = s) ∧
    ((∀ k, s.getKey k = false) → exec (.ldVxK x) s = .next { s with pc := s.pc - 2 })

/-- 45_input_timers R166, R167, R168: Fx07 copies DT into Vx, Fx15 copies Vx into DT, Fx18 copies Vx into ST; nothing else changes.
A tick between two reads of a DT that is not 0 makes them differ. The countdown starts at the next tick, and the sound gate is on exactly where the value put into ST is not 0. -/
def Obligations.TimerMoves : Prop :=
  ∀ (x : Nibble) (s : State),
    (∃ t, exec (.ldVxDT x) s = .next t ∧ t.getV x = s.dt ∧ (∀ j, j ≠ x → t.getV j = s.getV j) ∧ { t with v := s.v } = s) ∧
    (s.dt ≠ 0 → (tick s).dt ≠ s.dt) ∧
    exec (.ldDTVx x) s = .next { s with dt := s.getV x } ∧
    (tick { s with dt := s.getV x }).dt.toNat = (s.getV x).toNat - 1 ∧
    exec (.ldSTVx x) s = .next { s with st := s.getV x } ∧
    (soundGate { s with st := s.getV x } = true ↔ s.getV x ≠ 0)

/-! ## Host operations -/

/-- 60_exceptions R180: a tick takes 1 from each timer that is above 0, leaves one at 0, and changes nothing else. -/
def Obligations.TickCountsBothTimersDown : Prop :=
  ∀ s : State, (tick s).dt.toNat = s.dt.toNat - 1 ∧ (tick s).st.toNat = s.st.toNat - 1 ∧
    { tick s with dt := s.dt, st := s.st } = s

/-- 70_reset R200, 10_state R37 (D20): reset, from any state, gives every register, timer, slot and pixel its reset value, the reserved
region the font and zeros, clears FAULT, and leaves the program region and the keys. -/
def Obligations.ResetRestoresCanonicalState : Prop :=
  ∀ s : State,
    (∀ a, a ≤ 0x1FF → Memory.read (resetMachine s).mem a =
      if 0x050 ≤ a ∧ a < 0x0A0 then font.getD (a - 0x050) 0 else 0) ∧
    (∀ a, 0x200 ≤ a → Memory.read (resetMachine s).mem a = Memory.read s.mem a) ∧
    (∀ row col, pixel (resetMachine s).disp row col = false) ∧
    (∀ j, (resetMachine s).getV j = 0) ∧ (∀ (k : Nat) (h : k < 16), (resetMachine s).stack[k] = 0) ∧
    (resetMachine s).i = 0 ∧ (resetMachine s).pc = 0x200 ∧ (resetMachine s).sp = 0 ∧ (resetMachine s).dt = 0 ∧
    (resetMachine s).st = 0 ∧ (resetMachine s).fault = none ∧ (resetMachine s).key = s.key

/-- 70_reset R208: from any two states reset gives the same V, I, PC, SP, STACK, DT, ST, DISP, FAULT and reserved region, and reset
applied twice equals reset applied once. -/
def Obligations.ResetIsIdempotent : Prop :=
  ∀ s u : State,
    ({ resetMachine s with mem := u.mem, key := u.key, draws := u.draws } =
      { resetMachine u with mem := u.mem, key := u.key, draws := u.draws }) ∧
    (∀ a, a ≤ 0x1FF → Memory.read (resetMachine s).mem a = Memory.read (resetMachine u).mem a) ∧
    resetMachine (resetMachine s) = resetMachine s

/-- 70_reset R201, 10_state R37 (D21): power-on of a machine in any state gives State.reset, but for the oracle's position, which is the
model's own field (log 2). -/
def Obligations.PowerOnGivesResetState : Prop :=
  ∀ s : State, powerOn s = { State.reset with draws := s.draws }

/-- 70_reset R202, R203, R204 (D22, D35): a ROM of at most 0xE00 bytes is copied to 0x200 and on, every other byte and everything else
unchanged; a longer one, or a loader's error, changes nothing. -/
def Obligations.RomLoadIsAllOrNothing : Prop :=
  ∀ (rom : List Byte) (s : State), s.Inv →
    (rom.length ≤ 0xE00 → ∃ t, loadRom (.bytes rom) s = (.ok, t) ∧
      (∀ (k : Nat) (h : k < rom.length), Memory.read t.mem (0x200 + k) = rom[k]) ∧
      (∀ a, (a < 0x200 ∨ 0x200 + rom.length ≤ a) → Memory.read t.mem a = Memory.read s.mem a) ∧
      { t with mem := s.mem } = s) ∧
    (0xE00 < rom.length → loadRom (.bytes rom) s = (.romTooLarge, s)) ∧
    loadRom .loaderError s = (.romUnreadable, s)

/-- 70_reset R206, R207 (D27): restoring the snapshot of a legal state, in any state, gives that state; a restored machine's snapshot is the
one restored; a snapshot with SP above 16 is refused and changes nothing. The oracle's position is no part of a snapshot (log 2). -/
def Obligations.SnapshotRoundTrip : Prop :=
  (∀ s u : State, s.Inv → restore (snapshot s) u = (.ok, { s with draws := u.draws })) ∧
  (∀ (p : Snapshot) (s t : State), restore p s = (.ok, t) → snapshot t = p) ∧
  (∀ (p : Snapshot) (s : State), 16 < p.sp.toNat → restore p s = (.refused, s))

/-- 60_exceptions R185: set key sets the one key and changes nothing else; the host's read of a key answers that key, and its read of
any-key a pressed key, or none exactly where none is pressed. -/
def Obligations.SetKeySetsOneKey : Prop :=
  ∀ (s : State) (k : Nibble) (pressed : Bool),
    (s.setKey k pressed).getKey k = pressed ∧ (∀ j, j ≠ k → (s.setKey k pressed).getKey j = s.getKey j) ∧
    { s.setKey k pressed with key := s.key } = s ∧
    readKey k (s.setKey k pressed) = pressed ∧ (∀ b, readAnyKey s = some b → readKey b s = true) ∧
    (readAnyKey s = none ↔ ∀ b, readKey b s = false)
end

