-- ==== Sys2Proof/Laws/Encoding.lean ====
section
/-! SUPPORT. The fields of a built word are the parts it was built from, and every word is built from its fields: the two
halves of an encoding round trip, format by format (30_encoding.md R72, R73). -/

namespace Sys2Proof

/-! ## Words and fields as numbers -/

theorem toNat_append_eq {m n : Nat} (a : BitVec m) (b : BitVec n) : (a ++ b).toNat = a.toNat * 2 ^ n + b.toNat := by
  rw [BitVec.toNat_append, ← Nat.shiftLeft_add_eq_or_of_lt b.isLt, Nat.shiftLeft_eq]

theorem wordNNN_toNat (op : Nibble) (nnn : Addr12) : (wordNNN op nnn).toNat = op.toNat * 4096 + nnn.toNat := by
  simp only [wordNNN, toNat_append_eq, Nat.reducePow]

theorem wordXKK_toNat (op x : Nibble) (kk : Byte) :
    (wordXKK op x kk).toNat = op.toNat * 4096 + x.toNat * 256 + kk.toNat := by
  simp only [wordXKK, toNat_append_eq, Nat.reducePow]
  omega

theorem wordXYN_toNat (op x y n : Nibble) :
    (wordXYN op x y n).toNat = op.toNat * 4096 + x.toNat * 256 + y.toNat * 16 + n.toNat := by
  simp only [wordXYN, toNat_append_eq, Nat.reducePow]
  omega

theorem toNat_extract (w : Word) (start len : Nat) :
    (w.extractLsb' start len).toNat = w.toNat / 2 ^ start % 2 ^ len := by
  rw [BitVec.extractLsb'_toNat, Nat.shiftRight_eq_div_pow]

theorem fieldOp_toNat (w : Word) : (fieldOp w).toNat = w.toNat / 4096 % 16 := toNat_extract w 12 4
theorem fieldX_toNat (w : Word) : (fieldX w).toNat = w.toNat / 256 % 16 := toNat_extract w 8 4
theorem fieldY_toNat (w : Word) : (fieldY w).toNat = w.toNat / 16 % 16 := toNat_extract w 4 4
theorem fieldN_toNat (w : Word) : (fieldN w).toNat = w.toNat % 16 := by
  simp only [fieldN, toNat_extract, Nat.pow_zero, Nat.div_one]
  rfl
theorem fieldKK_toNat (w : Word) : (fieldKK w).toNat = w.toNat % 256 := by
  simp only [fieldKK, toNat_extract, Nat.pow_zero, Nat.div_one]
  rfl
theorem fieldNNN_toNat (w : Word) : (fieldNNN w).toNat = w.toNat % 4096 := by
  simp only [fieldNNN, toNat_extract, Nat.pow_zero, Nat.div_one]
  rfl
theorem hiByte_toNat (w : Word) : (hiByte w).toNat = w.toNat / 256 := by
  have h := toNat_extract w 8 8
  have := w.isLt
  simp only [hiByte, h]
  omega
theorem loByte_toNat (w : Word) : (loByte w).toNat = w.toNat % 256 := by
  simp only [loByte, toNat_extract, Nat.pow_zero, Nat.div_one]
  rfl
theorem wordOfBytes_toNat (hi lo : Byte) : (wordOfBytes hi lo).toNat = hi.toNat * 256 + lo.toNat := by
  simp only [wordOfBytes, toNat_append_eq, Nat.reducePow]

/-! ## The fields of a built word -/

variable (op x y n : Nibble) (kk : Byte) (nnn : Addr12) (w : Word)

@[simp] theorem fieldOp_wordNNN : fieldOp (wordNNN op nnn) = op := by
  apply BitVec.eq_of_toNat_eq
  have := op.isLt; have := nnn.isLt
  rw [fieldOp_toNat, wordNNN_toNat]; omega

@[simp] theorem fieldNNN_wordNNN : fieldNNN (wordNNN op nnn) = nnn := by
  apply BitVec.eq_of_toNat_eq
  have := op.isLt; have := nnn.isLt
  rw [fieldNNN_toNat, wordNNN_toNat]; omega

@[simp] theorem fieldOp_wordXKK : fieldOp (wordXKK op x kk) = op := by
  apply BitVec.eq_of_toNat_eq
  have := op.isLt; have := x.isLt; have := kk.isLt
  rw [fieldOp_toNat, wordXKK_toNat]; omega

@[simp] theorem fieldX_wordXKK : fieldX (wordXKK op x kk) = x := by
  apply BitVec.eq_of_toNat_eq
  have := op.isLt; have := x.isLt; have := kk.isLt
  rw [fieldX_toNat, wordXKK_toNat]; omega

@[simp] theorem fieldKK_wordXKK : fieldKK (wordXKK op x kk) = kk := by
  apply BitVec.eq_of_toNat_eq
  have := op.isLt; have := x.isLt; have := kk.isLt
  rw [fieldKK_toNat, wordXKK_toNat]; omega

@[simp] theorem fieldOp_wordXYN : fieldOp (wordXYN op x y n) = op := by
  apply BitVec.eq_of_toNat_eq
  have := op.isLt; have := x.isLt; have := y.isLt; have := n.isLt
  rw [fieldOp_toNat, wordXYN_toNat]; omega

@[simp] theorem fieldX_wordXYN : fieldX (wordXYN op x y n) = x := by
  apply BitVec.eq_of_toNat_eq
  have := op.isLt; have := x.isLt; have := y.isLt; have := n.isLt
  rw [fieldX_toNat, wordXYN_toNat]; omega

@[simp] theorem fieldY_wordXYN : fieldY (wordXYN op x y n) = y := by
  apply BitVec.eq_of_toNat_eq
  have := op.isLt; have := x.isLt; have := y.isLt; have := n.isLt
  rw [fieldY_toNat, wordXYN_toNat]; omega

@[simp] theorem fieldN_wordXYN : fieldN (wordXYN op x y n) = n := by
  apply BitVec.eq_of_toNat_eq
  have := op.isLt; have := x.isLt; have := y.isLt; have := n.isLt
  rw [fieldN_toNat, wordXYN_toNat]; omega

/-! ## A word is built from its fields -/

theorem wordNNN_fields (h : fieldOp w = op) : wordNNN op (fieldNNN w) = w := by
  apply BitVec.eq_of_toNat_eq
  have := w.isLt
  rw [wordNNN_toNat, ← h, fieldOp_toNat, fieldNNN_toNat]; omega

theorem wordXKK_fields (h : fieldOp w = op) : wordXKK op (fieldX w) (fieldKK w) = w := by
  apply BitVec.eq_of_toNat_eq
  have := w.isLt
  rw [wordXKK_toNat, ← h, fieldOp_toNat, fieldX_toNat, fieldKK_toNat]; omega

theorem wordXYN_fields (h : fieldOp w = op) : wordXYN op (fieldX w) (fieldY w) (fieldN w) = w := by
  apply BitVec.eq_of_toNat_eq
  have := w.isLt
  rw [wordXYN_toNat, ← h, fieldOp_toNat, fieldX_toNat, fieldY_toNat, fieldN_toNat]; omega

/-! ## The bits of a built word -/

theorem getLsbD_wordNNN (k : Nat) :
    (wordNNN op nnn).getLsbD k = if k < 12 then nnn.getLsbD k else op.getLsbD (k - 12) := by
  have h : (wordNNN op nnn).getLsbD k = _ := BitVec.getLsbD_append (x := op) (y := nnn) (i := k)
  exact h

theorem getLsbD_wordXKK (k : Nat) : (wordXKK op x kk).getLsbD k =
    if k < 8 then kk.getLsbD k else if k < 12 then x.getLsbD (k - 8) else op.getLsbD (k - 12) := by
  have h : (wordXKK op x kk).getLsbD k = _ := BitVec.getLsbD_append (x := op ++ x) (y := kk) (i := k)
  rw [h, BitVec.getLsbD_append]
  by_cases h8 : k < 8
  · simp [h8]
  · by_cases h12 : k < 12
    · simp [h8, h12, show k - 8 < 4 by omega]
    · simp [h8, h12, show ¬ k - 8 < 4 by omega, Nat.sub_sub]

theorem getLsbD_wordXYN (k : Nat) : (wordXYN op x y n).getLsbD k =
    if k < 4 then n.getLsbD k else if k < 8 then y.getLsbD (k - 4)
    else if k < 12 then x.getLsbD (k - 8) else op.getLsbD (k - 12) := by
  have h : (wordXYN op x y n).getLsbD k = _ := BitVec.getLsbD_append (x := op ++ x ++ y) (y := n) (i := k)
  rw [h, BitVec.getLsbD_append, BitVec.getLsbD_append]
  by_cases h4 : k < 4
  · simp [h4]
  · by_cases h8 : k < 8
    · simp [h4, h8, show k - 4 < 4 by omega]
    · by_cases h12 : k < 12
      · simp [h4, h8, h12, show ¬ k - 4 < 4 by omega, show k - 8 < 4 by omega, Nat.sub_sub]
      · simp [h4, h8, h12, show ¬ k - 4 < 4 by omega, show ¬ k - 8 < 4 by omega, Nat.sub_sub]

/-! ## Byte order -/

/-- Storing a word big-endian and reading it back gives the word (20_memory R60). -/
@[simp] theorem wordOfBytes_hi_lo : wordOfBytes (hiByte w) (loByte w) = w := by
  apply BitVec.eq_of_toNat_eq
  have := w.isLt
  rw [wordOfBytes_toNat, hiByte_toNat, loByte_toNat]; omega

/-! ## The decoder, family by family (30_encoding R77) -/

theorem decodeWord_op0 (w : Word) (h : fieldOp w = 0x0#4) : decodeWord w = decode0 w := by
  unfold decodeWord
  simp only [h, BitVec.reduceEq, if_true, if_false]
theorem decodeWord_op1 (w : Word) (h : fieldOp w = 0x1#4) : decodeWord w = .ok (.jp (fieldNNN w)) := by
  unfold decodeWord
  simp only [h, BitVec.reduceEq, if_true, if_false]
theorem decodeWord_op2 (w : Word) (h : fieldOp w = 0x2#4) : decodeWord w = .ok (.call (fieldNNN w)) := by
  unfold decodeWord
  simp only [h, BitVec.reduceEq, if_true, if_false]
theorem decodeWord_op3 (w : Word) (h : fieldOp w = 0x3#4) : decodeWord w = .ok (.seImm (fieldX w) (fieldKK w)) := by
  unfold decodeWord
  simp only [h, BitVec.reduceEq, if_true, if_false]
theorem decodeWord_op4 (w : Word) (h : fieldOp w = 0x4#4) : decodeWord w = .ok (.sneImm (fieldX w) (fieldKK w)) := by
  unfold decodeWord
  simp only [h, BitVec.reduceEq, if_true, if_false]
theorem decodeWord_op5 (w : Word) (h : fieldOp w = 0x5#4) : decodeWord w = 
      (if fieldN w = 0x0#4 then .ok (.seReg (fieldX w) (fieldY w)) else .error (.unknown w)) := by
  unfold decodeWord
  simp only [h, BitVec.reduceEq, if_true, if_false]
theorem decodeWord_op6 (w : Word) (h : fieldOp w = 0x6#4) : decodeWord w = .ok (.ldImm (fieldX w) (fieldKK w)) := by
  unfold decodeWord
  simp only [h, BitVec.reduceEq, if_true, if_false]
theorem decodeWord_op7 (w : Word) (h : fieldOp w = 0x7#4) : decodeWord w = .ok (.addImm (fieldX w) (fieldKK w)) := by
  unfold decodeWord
  simp only [h, BitVec.reduceEq, if_true, if_false]
theorem decodeWord_op8 (w : Word) (h : fieldOp w = 0x8#4) : decodeWord w = decode8 w := by
  unfold decodeWord
  simp only [h, BitVec.reduceEq, if_true, if_false]
theorem decodeWord_op9 (w : Word) (h : fieldOp w = 0x9#4) : decodeWord w = 
      (if fieldN w = 0x0#4 then .ok (.sneReg (fieldX w) (fieldY w)) else .error (.unknown w)) := by
  unfold decodeWord
  simp only [h, BitVec.reduceEq, if_true, if_false]
theorem decodeWord_opA (w : Word) (h : fieldOp w = 0xA#4) : decodeWord w = .ok (.ldI (fieldNNN w)) := by
  unfold decodeWord
  simp only [h, BitVec.reduceEq, if_true, if_false]
theorem decodeWord_opB (w : Word) (h : fieldOp w = 0xB#4) : decodeWord w = .ok (.jpV0 (fieldNNN w)) := by
  unfold decodeWord
  simp only [h, BitVec.reduceEq, if_true, if_false]
theorem decodeWord_opC (w : Word) (h : fieldOp w = 0xC#4) : decodeWord w = .ok (.rnd (fieldX w) (fieldKK w)) := by
  unfold decodeWord
  simp only [h, BitVec.reduceEq, if_true, if_false]
theorem decodeWord_opD (w : Word) (h : fieldOp w = 0xD#4) : decodeWord w = .ok (.drw (fieldX w) (fieldY w) (fieldN w)) := by
  unfold decodeWord
  simp only [h, BitVec.reduceEq, if_true, if_false]
theorem decodeWord_opE (w : Word) (h : fieldOp w = 0xE#4) : decodeWord w = decodeE w := by
  unfold decodeWord
  simp only [h, BitVec.reduceEq, if_true, if_false]
theorem decodeWord_opF (w : Word) (h : fieldOp w = 0xF#4) : decodeWord w = decodeF w := by
  unfold decodeWord
  simp only [h, BitVec.reduceEq, if_false]

/-- A nibble is one of sixteen. -/
theorem nibble_cases (o : Nibble) :
    o = 0x0#4 ∨ o = 0x1#4 ∨ o = 0x2#4 ∨ o = 0x3#4 ∨ o = 0x4#4 ∨ o = 0x5#4 ∨ o = 0x6#4 ∨ o = 0x7#4 ∨
    o = 0x8#4 ∨ o = 0x9#4 ∨ o = 0xA#4 ∨ o = 0xB#4 ∨ o = 0xC#4 ∨ o = 0xD#4 ∨ o = 0xE#4 ∨ o = 0xF#4 := by
  have := o.isLt
  simp only [← BitVec.toNat_inj, BitVec.toNat_ofNat, Nat.reducePow, Nat.reduceMod]
  omega

end Sys2Proof
end

