-- ==== Sys2Proof/Laws/Memory.lean ====
section
/-! SUPPORT. The memory: read after write, and that every memory operation keeps the canonical form. -/

namespace Sys2Proof.Machine

/-! ## Reads of a canonical memory -/

theorem Memory.wfFrom_mono {lo lo' : Nat} {m : Memory} (h : Memory.wfFrom lo m = true) (hlo : lo' ≤ lo) :
    Memory.wfFrom lo' m = true := by
  cases m with
  | nil => rfl
  | cons c rest =>
    simp only [Memory.wfFrom, Bool.and_eq_true, decide_eq_true_eq] at h ⊢
    exact ⟨⟨⟨by omega, h.1.1.2⟩, h.1.2⟩, h.2⟩

/-- Below its first listed address a canonical memory reads as unlisted. -/
theorem Memory.read_of_lt {lo a : Nat} {m : Memory} (h : Memory.wfFrom lo m = true) (ha : a < lo) :
    Memory.read m a = Memory.unlisted a := by
  induction m generalizing lo with
  | nil => rfl
  | cons c rest ih =>
    simp only [Memory.wfFrom, Bool.and_eq_true, decide_eq_true_eq] at h
    have hne : ¬ c.1 = a := by omega
    simp only [Memory.read, hne, if_false]
    exact ih h.2 (by omega)

/-! ## Read after write -/

theorem Memory.read_write_ne (m : Memory) (a b : Nat) (v : Byte) (h : b ≠ a) :
    Memory.read (Memory.write m a v) b = Memory.read m b := by
  induction m with
  | nil =>
    simp only [Memory.write]
    split
    · rfl
    · simp [Memory.read, Ne.symm h]
  | cons c rest ih =>
    simp only [Memory.write]
    split
    · split
      · rfl
      · simp [Memory.read, Ne.symm h]
    · split
      · next hac =>
        split <;> simp [Memory.read, ← hac, Ne.symm h]
      · simp [Memory.read, ih]

theorem Memory.read_write_same {lo : Nat} {m : Memory} (h : Memory.wfFrom lo m = true) (a : Nat) (v : Byte) :
    Memory.read (Memory.write m a v) a = v := by
  induction m generalizing lo with
  | nil =>
    simp only [Memory.write]
    split
    · next hv => simp [Memory.read, hv]
    · simp [Memory.read]
  | cons c rest ih =>
    have hc := h
    simp only [Memory.wfFrom, Bool.and_eq_true, decide_eq_true_eq] at h
    simp only [Memory.write]
    split
    · next hlt =>
      split
      · next hv =>
        have hne : ¬ c.1 = a := by omega
        rw [hv]
        simp only [Memory.read, hne, if_false]
        exact Memory.read_of_lt h.2 (by omega)
      · simp [Memory.read]
    · split
      · next hac =>
        split
        · next hv => rw [hv]; exact Memory.read_of_lt h.2 (by omega)
        · simp [Memory.read]
      · next hnlt hne =>
        simp only [Memory.read, Ne.symm hne, if_false]
        exact ih h.2

/-! ## Writes keep the canonical form -/

theorem Memory.wfFrom_write {lo : Nat} {m : Memory} (h : Memory.wfFrom lo m = true) (a : Nat) (v : Byte)
    (hlo : lo ≤ a) (ha : a < Config.memSize) : Memory.wfFrom lo (Memory.write m a v) = true := by
  induction m generalizing lo with
  | nil =>
    simp only [Memory.write]
    split
    · rfl
    · next hv => simp [Memory.wfFrom, hlo, hv]; simpa using ha
  | cons c rest ih =>
    have hc := h
    simp only [Memory.wfFrom, Bool.and_eq_true, decide_eq_true_eq] at h
    simp only [Memory.write]
    split
    · next hlt =>
      split
      · exact hc
      · next hv =>
        simp only [Memory.wfFrom, Bool.and_eq_true, decide_eq_true_eq]
        exact ⟨⟨⟨hlo, ha⟩, by simpa using hv⟩, ⟨⟨by omega, h.1.1.2⟩, h.1.2⟩, h.2⟩
    · split
      · next hac =>
        split
        · exact Memory.wfFrom_mono h.2 (by omega)
        · next hv =>
          simp only [Memory.wfFrom, Bool.and_eq_true, decide_eq_true_eq]
          exact ⟨⟨⟨hlo, ha⟩, by simpa using hv⟩, by rw [hac]; exact h.2⟩
      · next hnlt hne =>
        simp only [Memory.wfFrom, Bool.and_eq_true, decide_eq_true_eq]
        exact ⟨h.1, ih h.2 (by omega)⟩

theorem Memory.wf_write {m : Memory} (h : Memory.wf m = true) (a : Nat) (v : Byte) (ha : a < Config.memSize) :
    Memory.wf (Memory.write m a v) = true :=
  Memory.wfFrom_write h a v (Nat.zero_le a) ha

theorem Memory.wf_writeBytes {m : Memory} (h : Memory.wf m = true) (a : Nat) (bs : List Byte)
    (ha : a + bs.length ≤ Config.memSize) : Memory.wf (Memory.writeBytes m a bs) = true := by
  induction bs generalizing m a with
  | nil => exact h
  | cons b rest ih =>
    simp only [List.length_cons] at ha
    exact ih (Memory.wf_write h a b (by omega)) (a + 1) (by omega)

/-- Outside the written range every byte reads as before. -/
theorem Memory.read_writeBytes_outside (m : Memory) (a : Nat) (bs : List Byte) (b : Nat)
    (h : b < a ∨ a + bs.length ≤ b) : Memory.read (Memory.writeBytes m a bs) b = Memory.read m b := by
  induction bs generalizing m a with
  | nil => rfl
  | cons c rest ih =>
    simp only [List.length_cons] at h
    simp only [Memory.writeBytes]
    rw [ih _ _ (by omega), Memory.read_write_ne _ _ _ _ (by omega)]

/-- Inside the written range every byte reads as the byte written to it. -/
theorem Memory.read_writeBytes_inside {m : Memory} (h : Memory.wf m = true) (a : Nat) (bs : List Byte)
    (ha : a + bs.length ≤ Config.memSize) (k : Nat) (hk : k < bs.length) :
    Memory.read (Memory.writeBytes m a bs) (a + k) = bs[k] := by
  induction bs generalizing m a k with
  | nil => simp at hk
  | cons c rest ih =>
    simp only [List.length_cons] at ha hk
    simp only [Memory.writeBytes]
    cases k with
    | zero =>
      rw [Memory.read_writeBytes_outside _ _ _ _ (by omega)]
      exact Memory.read_write_same h a c
    | succ j =>
      have := ih (Memory.wf_write h a c (by omega)) (a + 1) (by omega) j (by omega)
      simpa [Nat.add_assoc, Nat.add_comm 1 j] using this

/-! ## Reads of several bytes -/

@[simp] theorem Memory.length_readBytes (m : Memory) (a n : Nat) : (Memory.readBytes m a n).length = n := by
  induction n generalizing a with
  | zero => rfl
  | succ n ih => simp [Memory.readBytes, ih]

theorem Memory.getElem_readBytes (m : Memory) (a n k : Nat) (hk : k < n) :
    (Memory.readBytes m a n)[k]'(by simpa using hk) = Memory.read m (a + k) := by
  induction n generalizing a k with
  | zero => omega
  | succ n ih =>
    cases k with
    | zero => rfl
    | succ j =>
      have := ih (a + 1) j (by omega)
      simpa [Memory.readBytes, Nat.add_assoc, Nat.add_comm 1 j] using this

/-! ## Reset of the reserved region -/

theorem Memory.wfFrom_filter {lo : Nat} {m : Memory} (h : Memory.wfFrom lo m = true) (p : Host.Cell → Bool) :
    Memory.wfFrom lo (m.filter p) = true := by
  induction m generalizing lo with
  | nil => rfl
  | cons c rest ih =>
    simp only [Memory.wfFrom, Bool.and_eq_true, decide_eq_true_eq] at h
    simp only [List.filter_cons]
    split
    · simp only [Memory.wfFrom, Bool.and_eq_true, decide_eq_true_eq]
      exact ⟨h.1, ih h.2⟩
    · exact Memory.wfFrom_mono (ih h.2) (by omega)

theorem Memory.wf_resetReserved {m : Memory} (h : Memory.wf m = true) :
    Memory.wf (Memory.resetReserved m) = true :=
  Memory.wfFrom_filter h _

/-- In the reserved region a reset memory reads as at power-on. -/
theorem Memory.read_resetReserved_low (m : Memory) (a : Nat) (ha : a < Config.progStart) :
    Memory.read (Memory.resetReserved m) a = Memory.unlisted a := by
  induction m with
  | nil => rfl
  | cons c rest ih =>
    simp only [Memory.resetReserved, List.filter_cons] at ih ⊢
    split
    · next hc =>
      have hc' : Config.progStart ≤ c.1 := by simpa using hc
      have hne : ¬ c.1 = a := by omega
      simp only [Memory.read, hne, if_false]
      exact ih
    · exact ih

/-- In the program region a reset memory reads as before the reset. -/
theorem Memory.read_resetReserved_high (m : Memory) (a : Nat) (ha : Config.progStart ≤ a) :
    Memory.read (Memory.resetReserved m) a = Memory.read m a := by
  induction m with
  | nil => rfl
  | cons c rest ih =>
    simp only [Memory.resetReserved, List.filter_cons] at ih ⊢
    split
    · simp only [Memory.read]
      split
      · rfl
      · exact ih
    · next hc =>
      have hc' : ¬ Config.progStart ≤ c.1 := by simpa using hc
      have hne : ¬ c.1 = a := by omega
      simp only [Memory.read, hne, if_false]
      exact ih

theorem Memory.wf_nil : Memory.wf [] = true := rfl

end Sys2Proof.Machine
end

