-- ==== Sys2Proof/Laws/Ops.lean ====
section
/-! SUPPORT. One lemma per shared operation that says all it can do: the access checks, MemRead, MemWrite, raise, fetch, a
store through I, and step itself. -/

namespace Sys2Proof.Machine

/-! ## The access checks (20_memory R57) -/

theorem firstFailing_eq_none {ok : Nat → Bool} {a n : Nat} :
    firstFailing ok a n = none ↔ ∀ k < n, ok (a + k) = true := by
  induction n generalizing a with
  | zero => simp [firstFailing]
  | succ n ih =>
    simp only [firstFailing]
    split
    · next h =>
      rw [ih]
      constructor
      · intro hk k hlt
        cases k with
        | zero => exact h
        | succ j => simpa [Nat.add_assoc, Nat.add_comm 1 j] using hk j (by omega)
      · intro hk k hlt
        simpa [Nat.add_assoc, Nat.add_comm 1 k] using hk (k + 1) (by omega)
    · next h =>
      simp only [reduceCtorEq, false_iff]
      intro hk
      exact h (by simpa using hk 0 (by omega))

/-- The answer is the first failing address, and every address before it passes. -/
theorem firstFailing_eq_some {ok : Nat → Bool} {a n bad : Nat} :
    firstFailing ok a n = some bad ↔ ∃ k < n, bad = a + k ∧ ok bad = false ∧ ∀ j < k, ok (a + j) = true := by
  induction n generalizing a with
  | zero => simp [firstFailing]
  | succ n ih =>
    simp only [firstFailing]
    split
    · next h =>
      rw [ih]
      constructor
      · rintro ⟨k, hk, rfl, hb, hj⟩
        refine ⟨k + 1, by omega, by omega, hb, fun j hlt => ?_⟩
        cases j with
        | zero => exact h
        | succ j => simpa [Nat.add_assoc, Nat.add_comm 1 j] using hj j (by omega)
      · rintro ⟨k, hk, rfl, hb, hj⟩
        cases k with
        | zero => simp_all
        | succ k =>
          refine ⟨k, by omega, by omega, hb, fun j hlt => ?_⟩
          simpa [Nat.add_assoc, Nat.add_comm 1 j] using hj (j + 1) (by omega)
    · next h =>
      simp only [Option.some.injEq]
      constructor
      · rintro rfl
        exact ⟨0, by omega, rfl, by simpa using h, fun j hj => by omega⟩
      · rintro ⟨k, hk, rfl, hb, hj⟩
        cases k with
        | zero => rfl
        | succ k => exact absurd (hj 0 (by omega)) (by simpa using h)

theorem firstFailing_readable_none {a n : Nat} :
    firstFailing readable a n = none ↔ (n = 0 ∨ a + n ≤ Config.memSize) := by
  rw [firstFailing_eq_none]
  simp only [readable, decide_eq_true_eq]
  constructor
  · intro h
    by_cases hn : n = 0
    · exact .inl hn
    · have := h (n - 1) (by omega)
      exact .inr (by omega)
  · intro h k hk
    omega

theorem firstFailing_writable_none {a n : Nat} :
    firstFailing writable a n = none ↔ (n = 0 ∨ (Config.progStart ≤ a ∧ a + n ≤ Config.memSize)) := by
  rw [firstFailing_eq_none]
  simp only [writable, Bool.and_eq_true, decide_eq_true_eq]
  constructor
  · intro h
    by_cases hn : n = 0
    · exact .inl hn
    · have h1 := h 0 (by omega)
      have h2 := h (n - 1) (by omega)
      exact .inr (by omega)
  · intro h k hk
    omega

/-! ## MemRead and MemWrite (00_scope R13) -/

theorem memRead_eq (a n : Nat) (s : State) :
    memRead a n s = match firstFailing readable a n with
      | some bad => .error bad
      | none => .ok (Memory.readBytes s.mem a n) := rfl

theorem memRead_ok {a n : Nat} {s : State} {bytes : List Byte} (h : memRead a n s = .ok bytes) :
    (n = 0 ∨ a + n ≤ Config.memSize) ∧ bytes = Memory.readBytes s.mem a n := by
  simp only [memRead] at h
  split at h
  · cases h
  · next hf => cases h; exact ⟨firstFailing_readable_none.mp hf, rfl⟩

theorem memRead_of_le {a n : Nat} (s : State) (h : n = 0 ∨ a + n ≤ Config.memSize) :
    memRead a n s = .ok (Memory.readBytes s.mem a n) := by
  simp only [memRead, firstFailing_readable_none.mpr h]

theorem memWrite_ok {a : Nat} {bytes : List Byte} {s t : State} (h : memWrite a bytes s = .ok t) :
    (bytes.length = 0 ∨ (Config.progStart ≤ a ∧ a + bytes.length ≤ Config.memSize)) ∧
      t = { s with mem := Memory.writeBytes s.mem a bytes } := by
  simp only [memWrite] at h
  split at h
  · cases h
  · next hf => cases h; exact ⟨firstFailing_writable_none.mp hf, rfl⟩

theorem memWrite_of_le {a : Nat} {bytes : List Byte} (s : State) (h1 : Config.progStart ≤ a)
    (h2 : a + bytes.length ≤ Config.memSize) :
    memWrite a bytes s = .ok { s with mem := Memory.writeBytes s.mem a bytes } := by
  simp only [memWrite, firstFailing_writable_none.mpr (.inr ⟨h1, h2⟩)]

/-! ## Raising a fault (60_exceptions R172) -/

/-- All a raise can do: the state at the start of the step with FAULT set. -/
theorem raise_eq (i : Instr) (kind : FaultKind) (addr : Option Nat) (s : State) :
    raise i kind addr s = .next { s.rewindPc with fault := some (faultRecord i kind addr s) } := rfl

/-- A raise from the state after the advance gives the state before it with FAULT set. -/
theorem raise_advancePc (i : Instr) (kind : FaultKind) (addr : Option Nat) (s : State) :
    raise i kind addr s.advancePc =
      .next { s with fault := some { kind := kind, pc := s.pc, word := some (encode i), addr := addr } } := by
  simp [raise, faultRecord]

/-- All a store through I can do: raise at the first failing address, or write every byte. -/
theorem storeThroughI_cases (i : Instr) (bytes : List Byte) (s : State) :
    (∃ bad, firstFailing writable (indexAddr s) bytes.length = some bad ∧
        storeThroughI i bytes s = raise i .addressingFault (some bad) s) ∨
      (firstFailing writable (indexAddr s) bytes.length = none ∧
        storeThroughI i bytes s = .next { s with mem := Memory.writeBytes s.mem (indexAddr s) bytes }) := by
  simp only [storeThroughI, memWrite]
  cases hf : firstFailing writable (indexAddr s) bytes.length with
  | none => exact .inr ⟨rfl, rfl⟩
  | some bad => exact .inl ⟨bad, rfl, rfl⟩

/-! ## Operand lists -/

@[simp] theorem length_bcdDigits (b : Byte) : (bcdDigits b).length = 3 := rfl

@[simp] theorem length_regsUpTo (x : Nibble) (s : State) : (regsUpTo x s).length = x.toNat + 1 := by
  have := x.isLt
  simp only [regsUpTo, List.length_take, Vector.length_toList]
  omega

/-! ## Fetch (30_encoding R71) -/

theorem fetch_ok {s : State} {w : Word} (h : fetch s = .ok w) :
    s.pc.toNat + 1 < Config.memSize ∧
      w = wordOfBytes (Memory.read s.mem s.pc.toNat) (Memory.read s.mem (s.pc.toNat + 1)) := by
  simp only [fetch, readable, decide_eq_true_eq] at h
  split at h
  · cases h
  · split at h
    · cases h
    · cases h
      exact ⟨by omega, rfl⟩

theorem fetch_of_lt {s : State} (h : s.pc.toNat + 1 < Config.memSize) :
    fetch s = .ok (wordOfBytes (Memory.read s.mem s.pc.toNat) (Memory.read s.mem (s.pc.toNat + 1))) := by
  have h0 : s.pc.toNat < Config.memSize := by omega
  simp [fetch, readable, h, h0]

/-! ## All a step can do (60_exceptions R176) -/

theorem step_of_fault {s : State} {r : FaultRecord} (h : s.fault = some r) : step s = .fault (.faulted r) := by
  simp [step, h]

/-- A step of a core that is not faulted: a fetch fault, an unknown word, or the decoded instruction's meaning. -/
theorem step_cases {s : State} (h : s.fault = none) :
    (∃ a, fetch s = .error a ∧ step s = raiseFetch a s) ∨
      (∃ w e, fetch s = .ok w ∧ decodeWord w = .error e ∧ step s = .next s.advancePc) ∨
      (∃ w i, fetch s = .ok w ∧ decodeWord w = .ok i ∧ step s = exec i s.advancePc) := by
  cases hf : fetch s with
  | error a => exact .inl ⟨a, rfl, by simp [step, h, hf]⟩
  | ok w =>
    cases hd : decodeWord w with
    | error e => exact .inr (.inl ⟨w, e, rfl, hd, by simp [step, h, hf, hd, skipUnknown]⟩)
    | ok i => exact .inr (.inr ⟨w, i, rfl, hd, by simp [step, h, hf, hd]⟩)

end Sys2Proof.Machine
end

