-- ==== Sys2Proof/Laws/Display.lean ====
section
/-! SUPPORT. Pixels: what a toggle does to each, and that the clear display has none. -/

namespace Sys2Proof.Machine

/-- A toggle flips its own pixel and no other. -/
theorem pixel_togglePixel (d : Display) (y x row col : Nat) (hx : x < 64) :
    pixel (togglePixel d y x) row col = (pixel d row col ^^ decide (y < 32 ∧ row = y ∧ col = x)) := by
  by_cases hy : y < 32
  · by_cases hr : row < 32
    · by_cases hry : y = row
      · subst hry
        simp only [pixel, togglePixel, hy, dite_true, Vector.getElem_set_self, BitVec.getLsbD_xor, BitVec.getLsbD_twoPow]
        by_cases hc : col = x
        · subst hc; simp [hx]
        · simp [hc, Ne.symm hc]
      · simp [pixel, togglePixel, hy, hr, Vector.getElem_set_ne, hry, Ne.symm hry]
    · have hne : row ≠ y := by omega
      simp [pixel, hr, hne]
  · simp [togglePixel, hy]

@[simp] theorem pixel_clearDisplay (row col : Nat) : pixel clearDisplay row col = false := by
  simp [pixel, clearDisplay]

/-- Two displays with the same pixels are the same. -/
theorem display_ext {d e : Display} (h : ∀ row col, row < 32 → col < 64 → pixel d row col = pixel e row col) : d = e := by
  apply Vector.ext
  intro row hr
  apply BitVec.eq_of_getLsbD_eq
  intro col hc
  simpa [pixel, hr] using h row col hr hc

end Sys2Proof.Machine
end

