-- ==== Sys2Proof/Laws/Exec.lean ====
section
/-! SUPPORT. What exec can do, over all instructions: it never answers a fault, which next states come from a raise, and what
it can do to the memory and the stack. -/

namespace Sys2Proof.Machine

theorem exec_ne_fault (i : Instr) (s : State) (r : Fault) : exec i s ≠ .fault r := by
  cases i <;> simp only [exec, execSys, execCls, execRet, execJp, execCall, execSeImm, execSneImm, execSeReg, execLdImm,
    execAddImm, execLdReg, execOrReg, execAndReg, execXorReg, execAddReg, execSubReg, execShrReg, execSubnReg, execShlReg,
    execSneReg, execLdI, execJpV0, execRnd, execDrw, execSkp, execSknp, execLdVxDT, execLdVxK, execLdDTVx, execLdSTVx,
    execAddI, execLdF, execLdB, execStoreRegs, execLoadRegs, storeThroughI, raise] <;>
    (try split) <;> (try split) <;> simp

/-- The instruction reads or writes memory through I (20_memory R61). -/
def touchesMemory (i : Instr) : Prop :=
  (∃ x y n, i = .drw x y n) ∨ (∃ x, i = .ldB x) ∨ (∃ x, i = .storeRegs x) ∨ (∃ x, i = .loadRegs x)

/-- A next state of exec is a raise of RET, CALL or a memory instruction, or it leaves FAULT alone. -/
theorem exec_next_fault_cases {i : Instr} {s t : State} (h : exec i s = .next t) :
    t.fault = s.fault ∨
    (i = .ret ∧ s.sp = 0 ∧ exec i s = raise i .stackUnderflow none s) ∨
    ((∃ nnn, i = .call nnn) ∧ s.sp = 16 ∧ exec i s = raise i .stackOverflow none s) ∨
    (touchesMemory i ∧ ∃ a, exec i s = raise i .addressingFault (some a) s) := by
  cases i
  case ret =>
    simp only [exec, execRet] at h ⊢
    split at h
    · next hs => exact .inr (.inl ⟨trivial, hs, by rw [if_pos hs]⟩)
    · split at h
      · cases h; exact .inl rfl
      · cases h
  case call nnn =>
    simp only [exec, execCall] at h ⊢
    split at h
    · next hs => exact .inr (.inr (.inl ⟨⟨nnn, rfl⟩, hs, by rw [if_pos hs]⟩))
    · split at h
      · cases h; exact .inl rfl
      · cases h
  case drw x y n =>
    simp only [exec, execDrw] at h ⊢
    cases hm : memRead (indexAddr s) n.toNat s with
    | error a => exact .inr (.inr (.inr ⟨.inl ⟨x, y, n, rfl⟩, a, rfl⟩))
    | ok rows => rw [hm] at h; cases h; exact .inl rfl
  case ldB x =>
    rcases storeThroughI_cases (.ldB x) (bcdDigits (s.getV x)) s with ⟨a, _, ha⟩ | ⟨_, ha⟩
    · exact .inr (.inr (.inr ⟨.inr (.inl ⟨x, rfl⟩), a, ha⟩))
    · rw [exec, execLdB, ha] at h; cases h; exact .inl rfl
  case storeRegs x =>
    rcases storeThroughI_cases (.storeRegs x) (regsUpTo x s) s with ⟨a, _, ha⟩ | ⟨_, ha⟩
    · exact .inr (.inr (.inr ⟨.inr (.inr (.inl ⟨x, rfl⟩)), a, ha⟩))
    · rw [exec, execStoreRegs, ha] at h; cases h; exact .inl rfl
  case loadRegs x =>
    simp only [exec, execLoadRegs] at h ⊢
    cases hm : memRead (indexAddr s) (x.toNat + 1) s with
    | error a => exact .inr (.inr (.inr ⟨.inr (.inr (.inr ⟨x, rfl⟩)), a, rfl⟩))
    | ok bytes => rw [hm] at h; cases h; exact .inl rfl
  case ldVxK x =>
    simp only [exec, execLdVxK] at h
    split at h <;> cases h <;> exact .inl rfl
  all_goals
    simp only [exec, execSys, execCls, execJp, execSeImm, execSneImm, execSeReg, execLdImm, execAddImm, execLdReg,
      execOrReg, execAndReg, execXorReg, execAddReg, execSubReg, execShrReg, execSubnReg, execShlReg, execSneReg, execLdI,
      execJpV0, execRnd, execSkp, execSknp, execLdVxDT, execLdDTVx, execLdSTVx, execAddI, execLdF] at h
    cases h
    left
    simp

/-- A next state of exec keeps the memory as a value, or is a store through I of bytes that all can be written. -/
theorem exec_next_mem_cases {i : Instr} {s t : State} (h : exec i s = .next t) :
    t.mem = s.mem ∨
    ∃ bytes : List Byte, firstFailing writable (indexAddr s) bytes.length = none ∧
      t = { s with mem := Memory.writeBytes s.mem (indexAddr s) bytes } ∧
      ((∃ x, i = .ldB x ∧ bytes = bcdDigits (s.getV x)) ∨ (∃ x, i = .storeRegs x ∧ bytes = regsUpTo x s)) := by
  cases i
  case ret =>
    simp only [exec, execRet, raise] at h
    split at h
    · cases h; exact .inl rfl
    · split at h <;> cases h; exact .inl rfl
  case call nnn =>
    simp only [exec, execCall, raise] at h
    split at h
    · cases h; exact .inl rfl
    · split at h <;> cases h; exact .inl rfl
  case drw x y n =>
    simp only [exec, execDrw, raise] at h
    split at h <;> cases h <;> exact .inl rfl
  case ldB x =>
    rcases storeThroughI_cases (.ldB x) (bcdDigits (s.getV x)) s with ⟨a, _, ha⟩ | ⟨hf, ha⟩
    · rw [exec, execLdB, ha] at h; cases h; exact .inl rfl
    · rw [exec, execLdB, ha] at h; cases h; exact .inr ⟨_, hf, rfl, .inl ⟨x, rfl, rfl⟩⟩
  case storeRegs x =>
    rcases storeThroughI_cases (.storeRegs x) (regsUpTo x s) s with ⟨a, _, ha⟩ | ⟨hf, ha⟩
    · rw [exec, execStoreRegs, ha] at h; cases h; exact .inl rfl
    · rw [exec, execStoreRegs, ha] at h; cases h; exact .inr ⟨_, hf, rfl, .inr ⟨x, rfl, rfl⟩⟩
  case loadRegs x =>
    simp only [exec, execLoadRegs, raise] at h
    split at h <;> cases h <;> exact .inl rfl
  case ldVxK x =>
    simp only [exec, execLdVxK] at h
    split at h <;> cases h <;> exact .inl rfl
  all_goals
    simp only [exec, execSys, execCls, execJp, execSeImm, execSneImm, execSeReg, execLdImm, execAddImm, execLdReg,
      execOrReg, execAndReg, execXorReg, execAddReg, execSubReg, execShrReg, execSubnReg, execShlReg, execSneReg, execLdI,
      execJpV0, execRnd, execSkp, execSknp, execLdVxDT, execLdDTVx, execLdSTVx, execAddI, execLdF] at h
    cases h
    left
    simp

/-- A next state of exec keeps the stack, or comes from RET or CALL with room. -/
theorem exec_next_stack_cases {i : Instr} {s t : State} (h : exec i s = .next t) :
    (t.sp = s.sp ∧ t.stack = s.stack) ∨
    (i = .ret ∧ s.sp ≠ 0 ∧ s.sp.toNat - 1 < Config.stackDepth ∧ t.sp = s.sp - 1 ∧ t.stack = s.stack) ∨
    (∃ nnn, ∃ hs : s.sp.toNat < Config.stackDepth, i = .call nnn ∧ t.sp = s.sp + 1 ∧
      t.stack = s.stack.set s.sp.toNat s.pc hs) := by
  cases i
  case ret =>
    simp only [exec, execRet, raise] at h
    split at h
    · cases h; exact .inl ⟨rfl, rfl⟩
    · next h0 =>
      split at h <;> cases h
      next h1 => exact .inr (.inl ⟨rfl, h0, h1, rfl, rfl⟩)
  case call nnn =>
    simp only [exec, execCall, raise] at h
    split at h
    · cases h; exact .inl ⟨rfl, rfl⟩
    · split at h <;> cases h
      next h1 => exact .inr (.inr ⟨nnn, h1, rfl, rfl, rfl⟩)
  case drw x y n =>
    simp only [exec, execDrw, raise] at h
    split at h <;> cases h <;> exact .inl ⟨rfl, rfl⟩
  case ldB x =>
    rcases storeThroughI_cases (.ldB x) (bcdDigits (s.getV x)) s with ⟨a, _, ha⟩ | ⟨_, ha⟩ <;>
      (rw [exec, execLdB, ha] at h; cases h; exact .inl ⟨rfl, rfl⟩)
  case storeRegs x =>
    rcases storeThroughI_cases (.storeRegs x) (regsUpTo x s) s with ⟨a, _, ha⟩ | ⟨_, ha⟩ <;>
      (rw [exec, execStoreRegs, ha] at h; cases h; exact .inl ⟨rfl, rfl⟩)
  case loadRegs x =>
    simp only [exec, execLoadRegs, raise] at h
    split at h <;> cases h <;> exact .inl ⟨rfl, rfl⟩
  case ldVxK x =>
    simp only [exec, execLdVxK] at h
    split at h <;> cases h <;> exact .inl ⟨rfl, rfl⟩
  all_goals
    simp only [exec, execSys, execCls, execJp, execSeImm, execSneImm, execSeReg, execLdImm, execAddImm, execLdReg,
      execOrReg, execAndReg, execXorReg, execAddReg, execSubReg, execShrReg, execSubnReg, execShlReg, execSneReg, execLdI,
      execJpV0, execRnd, execSkp, execSknp, execLdVxDT, execLdDTVx, execLdSTVx, execAddI, execLdF] at h
    cases h
    left
    simp

end Sys2Proof.Machine
end

