-- ==== Sys2Proof/Laws/Operands.lean ====
section
/-! SUPPORT. The operand lists of the block transfers, the first failing address of a range, the key scan and the flag
arithmetic. -/

namespace Sys2Proof.Machine

/-! ## The registers as a list (43_index_memory R144, R145) -/

theorem getElem_regsUpTo (x j : Nibble) (s : State) (h : j.toNat ≤ x.toNat) :
    (regsUpTo x s)[j.toNat]'(by rw [length_regsUpTo]; omega) = s.getV j := by
  simp [regsUpTo, State.getV]

/-- Register j after loading bytes from register k up: its byte where j is in the range, else as before. -/
theorem getElem_setRegsFrom (bytes : List Byte) (k : Nat) (v : Vector Byte 16) (j : Nat) (hj : j < 16) :
    (setRegsFrom k bytes v)[j] = if h : k ≤ j ∧ j < k + bytes.length then bytes[j - k] else v[j] := by
  induction bytes generalizing k v with
  | nil =>
    have : ¬ (k ≤ j ∧ j < k + ([] : List Byte).length) := by simp
    simp only [setRegsFrom, this, dite_false]
  | cons b rest ih =>
    simp only [setRegsFrom, ih, List.length_cons]
    by_cases h1 : k + 1 ≤ j ∧ j < k + 1 + rest.length
    · have h2 : k ≤ j ∧ j < k + (rest.length + 1) := by omega
      have h3 : j - k = (j - (k + 1)) + 1 := by omega
      simp only [h1, h2, and_self, dite_true, h3, List.getElem_cons_succ]
    · simp only [h1, dite_false]
      by_cases hkj : k = j
      · subst hkj
        simp [hj]
      · have h2 : ¬ (k ≤ j ∧ j < k + (rest.length + 1)) := by omega
        simp only [h2, dite_false]
        split
        · exact Vector.getElem_set_ne (h := hkj) ..
        · rfl

theorem getV_setRegs (s : State) (bytes : List Byte) (j : Nibble) :
    (s.setRegs bytes).getV j = if h : j.toNat < bytes.length then bytes[j.toNat] else s.getV j := by
  have := getElem_setRegsFrom bytes 0 s.v j.toNat j.isLt
  simpa [State.getV] using this

/-! ## The first failing address (20_memory R57) -/

/-- A read range that runs past 0xFFF fails first at its start or at 0x1000, whichever is higher. -/
theorem firstFailing_readable_some {a n : Nat} (hn : n ≠ 0) (h : Config.memSize < a + n) :
    firstFailing readable a n = some (max a Config.memSize) := by
  rw [firstFailing_eq_some]
  refine ⟨max a Config.memSize - a, by omega, by omega, ?_, fun j hj => ?_⟩
  · simp only [readable, decide_eq_false_iff_not]; omega
  · simp only [readable, decide_eq_true_eq]; omega

/-- A write range that starts in the reserved region fails at its start. -/
theorem firstFailing_writable_low {a n : Nat} (hn : n ≠ 0) (h : a < Config.progStart) :
    firstFailing writable a n = some a := by
  rw [firstFailing_eq_some]
  refine ⟨0, by omega, rfl, ?_, fun j hj => by omega⟩
  simp only [writable, Bool.and_eq_false_iff, decide_eq_false_iff_not]; omega

/-- A write range that starts in the program region and runs past 0xFFF fails first at its start or at 0x1000. -/
theorem firstFailing_writable_high {a n : Nat} (hn : n ≠ 0) (h0 : Config.progStart ≤ a) (h : Config.memSize < a + n) :
    firstFailing writable a n = some (max a Config.memSize) := by
  rw [firstFailing_eq_some]
  refine ⟨max a Config.memSize - a, by omega, by omega, ?_, fun j hj => ?_⟩
  · simp only [writable, Bool.and_eq_false_iff, decide_eq_false_iff_not]; omega
  · simp only [writable, Bool.and_eq_true, decide_eq_true_eq]; omega

theorem readable_iff_mayRead (a : Nat) : readable a = true ↔ MayRead a := by
  simp only [readable, MayRead, decide_eq_true_eq, Config.memSize]; omega

theorem writable_iff_mayWrite (a : Nat) : writable a = true ↔ MayWrite a := by
  simp only [writable, MayWrite, Bool.and_eq_true, decide_eq_true_eq, Config.memSize, Config.progStart]; omega

/-- The check's answer is the address the spec's words name, FirstRefused. -/
theorem firstFailing_iff_firstRefused {ok : Nat → Bool} {P : Nat → Prop} (hP : ∀ a, ok a = true ↔ P a) {base n a : Nat} :
    firstFailing ok base n = some a ↔ FirstRefused P base n a := by
  rw [firstFailing_eq_some]
  constructor
  · rintro ⟨k, hk, rfl, hb, hj⟩
    refine ⟨by omega, by omega, by rw [← hP]; simp [hb], fun c hc hca => ?_⟩
    have := hj (c - base) (by omega)
    rwa [show base + (c - base) = c by omega, hP] at this
  · rintro ⟨h1, h2, h3, h4⟩
    refine ⟨a - base, by omega, by omega, ?_, fun j hj => (hP _).mpr (h4 _ (by omega) (by omega))⟩
    rw [← hP] at h3; simpa using h3

/-! ## The key scan (45_input_timers R163) -/

theorem firstPressed_eq_none {s : State} {k n : Nat} :
    firstPressed s k n = none ↔ ∀ j < n, s.getKey (BitVec.ofNat 4 (k + j)) = false := by
  induction n generalizing k with
  | zero => simp [firstPressed]
  | succ n ih =>
    simp only [firstPressed]
    split
    · next h =>
      simp only [reduceCtorEq, false_iff]
      intro hk
      have := hk 0 (by omega)
      simp_all
    · next h =>
      rw [ih]
      constructor
      · intro hk j hj
        cases j with
        | zero => simpa using h
        | succ j => simpa [Nat.add_assoc, Nat.add_comm 1 j] using hk j (by omega)
      · intro hk j hj
        simpa [Nat.add_assoc, Nat.add_comm 1 j] using hk (j + 1) (by omega)

theorem firstPressed_eq_some {s : State} {k n : Nat} {b : Nibble} (h : firstPressed s k n = some b) :
    ∃ j < n, b = BitVec.ofNat 4 (k + j) ∧ s.getKey b = true ∧ ∀ m < j, s.getKey (BitVec.ofNat 4 (k + m)) = false := by
  induction n generalizing k with
  | zero => simp [firstPressed] at h
  | succ n ih =>
    simp only [firstPressed] at h
    split at h
    · next hk => cases h; exact ⟨0, by omega, rfl, hk, fun m hm => by omega⟩
    · next hk =>
      obtain ⟨j, hj, hb, hkey, hall⟩ := ih h
      refine ⟨j + 1, by omega, by rw [hb, Nat.add_assoc, Nat.add_comm 1 j], hkey, fun m hm => ?_⟩
      cases m with
      | zero => simpa using hk
      | succ m => simpa [Nat.add_assoc, Nat.add_comm 1 m] using hall m (by omega)

theorem ofNat_toNat_nibble (k : Nibble) : BitVec.ofNat 4 k.toNat = k := by simp

/-- AnyKeyPressed finds none exactly when no key is pressed. -/
theorem anyKeyPressed_eq_none {s : State} : anyKeyPressed s = none ↔ ∀ k, s.getKey k = false := by
  rw [anyKeyPressed, firstPressed_eq_none]
  constructor
  · intro h k
    have := h k.toNat k.isLt
    simpa [ofNat_toNat_nibble] using this
  · intro h j _
    exact h _

/-- AnyKeyPressed finds the lowest-numbered pressed key. -/
theorem anyKeyPressed_eq_some {s : State} {b : Nibble} (h : anyKeyPressed s = some b) :
    s.getKey b = true ∧ ∀ j : Nibble, j.toNat < b.toNat → s.getKey j = false := by
  obtain ⟨n, hn, hb, hkey, hall⟩ := firstPressed_eq_some h
  refine ⟨hkey, fun j hj => ?_⟩
  have hbn : b.toNat = n := by rw [hb]; simp at hn ⊢; omega
  have := hall j.toNat (by omega)
  simpa [ofNat_toNat_nibble] using this

/-! ## Flag arithmetic (42_alu R120) -/

theorem addTrunc_toNat (a b : Byte) : (addTrunc a b).toNat = (a.toNat + b.toNat) % 256 := by
  simp [addTrunc]

theorem subTrunc_toNat (a b : Byte) : (subTrunc a b).toNat = (a.toNat + 256 - b.toNat) % 256 := by
  simp [subTrunc]

theorem shrOne_toNat (a : Byte) : (shrOne a).toNat = a.toNat / 2 := by
  simp [shrOne, Nat.shiftRight_eq_div_pow]

theorem shlOne_toNat (a : Byte) : (shlOne a).toNat = 2 * a.toNat % 256 := by
  simp [shlOne, Nat.shiftLeft_eq, Nat.mul_comm]

theorem flagByte_shrOut (a : Byte) : (flagByte (shrOut a)).toNat = a.toNat % 2 := by
  simp only [flagByte, shrOut, BitVec.getLsbD, Nat.testBit_zero]
  by_cases h : a.toNat % 2 = 1 <;> simp [h]
  omega

theorem flagByte_shlOut (a : Byte) : (flagByte (shlOut a)).toNat = a.toNat / 128 := by
  have := a.isLt
  have h128 : shlOut a = decide (a.toNat / 128 % 2 = 1) := by
    simp [shlOut, BitVec.getLsbD, Nat.testBit_eq_decide_div_mod_eq]
  rw [h128, flagByte]
  by_cases h : a.toNat / 128 % 2 = 1
  · have h1 : (if decide (a.toNat / 128 % 2 = 1) = true then (1 : Byte) else 0).toNat = 1 := by simp [h]
    omega
  · have h0 : (if decide (a.toNat / 128 % 2 = 1) = true then (1 : Byte) else 0).toNat = 0 := by simp [h]
    omega

end Sys2Proof.Machine
end

