-- ==== Sys2Proof/Laws/PerInstr.lean ====
section
/-! SUPPORT. The family RowFit: the word an instruction encodes to lies in the instruction's row of the opcode map, which is
transcribed apart from the encoder (30_encoding.md R78). -/

namespace Sys2Proof.Laws.RowFit

/-- A mask that keeps the op nibble alone. -/
theorem covers_op (w : Word) (op : Nibble) (h : fieldOp w = op) : OpcodeRow.covers ⟨wordNNN op 0, 0xF000⟩ w = true := by
  subst h
  have hm : w &&& 0xF000#16 = wordNNN (fieldOp w) 0 := by
    apply BitVec.eq_of_getLsbD_eq
    intro k hk
    rw [getLsbD_wordNNN]
    interval_cases k <;> simp [fieldOp]
  exact beq_iff_eq.mpr hm

/-- A mask that keeps the op nibble and the low nibble. -/
theorem covers_op_n (w : Word) (op n : Nibble) (h : fieldOp w = op) (hn : fieldN w = n) :
    OpcodeRow.covers ⟨wordXYN op 0 0 n, 0xF00F⟩ w = true := by
  subst h hn
  have hm : w &&& 0xF00F#16 = wordXYN (fieldOp w) 0 0 (fieldN w) := by
    apply BitVec.eq_of_getLsbD_eq
    intro k hk
    rw [getLsbD_wordXYN]
    interval_cases k <;> simp [fieldOp, fieldN]
  exact beq_iff_eq.mpr hm

/-- A mask that keeps the op nibble and the low byte. -/
theorem covers_op_kk (w : Word) (op : Nibble) (kk : Byte) (h : fieldOp w = op) (hk : fieldKK w = kk) :
    OpcodeRow.covers ⟨wordXKK op 0 kk, 0xF0FF⟩ w = true := by
  subst h hk
  have hm : w &&& 0xF0FF#16 = wordXKK (fieldOp w) 0 (fieldKK w) := by
    apply BitVec.eq_of_getLsbD_eq
    intro k hk
    rw [getLsbD_wordXKK]
    interval_cases k <;> simp [fieldOp, fieldKK]
  exact beq_iff_eq.mpr hm

/-- The encoded word has the fixed bits of the instruction's row. -/
def Statement (i : Instr) : Prop := i.row.covers (encode i) = true

theorem sys (nnn : Addr12) : Statement (.sys nnn) := covers_op _ 0x0 (by simp [encode])
theorem cls : Statement .cls := rfl
theorem ret : Statement .ret := rfl
theorem jp (nnn : Addr12) : Statement (.jp nnn) := covers_op _ 0x1 (by simp [encode])
theorem call (nnn : Addr12) : Statement (.call nnn) := covers_op _ 0x2 (by simp [encode])
theorem seImm (x : Nibble) (kk : Byte) : Statement (.seImm x kk) := covers_op _ 0x3 (by simp [encode])
theorem sneImm (x : Nibble) (kk : Byte) : Statement (.sneImm x kk) := covers_op _ 0x4 (by simp [encode])
theorem seReg (x y : Nibble) : Statement (.seReg x y) := covers_op_n _ 0x5 0x0 (by simp [encode]) (by simp [encode])
theorem ldImm (x : Nibble) (kk : Byte) : Statement (.ldImm x kk) := covers_op _ 0x6 (by simp [encode])
theorem addImm (x : Nibble) (kk : Byte) : Statement (.addImm x kk) := covers_op _ 0x7 (by simp [encode])
theorem ldReg (x y : Nibble) : Statement (.ldReg x y) := covers_op_n _ 0x8 0x0 (by simp [encode]) (by simp [encode])
theorem orReg (x y : Nibble) : Statement (.orReg x y) := covers_op_n _ 0x8 0x1 (by simp [encode]) (by simp [encode])
theorem andReg (x y : Nibble) : Statement (.andReg x y) := covers_op_n _ 0x8 0x2 (by simp [encode]) (by simp [encode])
theorem xorReg (x y : Nibble) : Statement (.xorReg x y) := covers_op_n _ 0x8 0x3 (by simp [encode]) (by simp [encode])
theorem addReg (x y : Nibble) : Statement (.addReg x y) := covers_op_n _ 0x8 0x4 (by simp [encode]) (by simp [encode])
theorem subReg (x y : Nibble) : Statement (.subReg x y) := covers_op_n _ 0x8 0x5 (by simp [encode]) (by simp [encode])
theorem shrReg (x y : Nibble) : Statement (.shrReg x y) := covers_op_n _ 0x8 0x6 (by simp [encode]) (by simp [encode])
theorem subnReg (x y : Nibble) : Statement (.subnReg x y) := covers_op_n _ 0x8 0x7 (by simp [encode]) (by simp [encode])
theorem shlReg (x y : Nibble) : Statement (.shlReg x y) := covers_op_n _ 0x8 0xE (by simp [encode]) (by simp [encode])
theorem sneReg (x y : Nibble) : Statement (.sneReg x y) := covers_op_n _ 0x9 0x0 (by simp [encode]) (by simp [encode])
theorem ldI (nnn : Addr12) : Statement (.ldI nnn) := covers_op _ 0xA (by simp [encode])
theorem jpV0 (nnn : Addr12) : Statement (.jpV0 nnn) := covers_op _ 0xB (by simp [encode])
theorem rnd (x : Nibble) (kk : Byte) : Statement (.rnd x kk) := covers_op _ 0xC (by simp [encode])
theorem drw (x y n : Nibble) : Statement (.drw x y n) := covers_op _ 0xD (by simp [encode])
theorem skp (x : Nibble) : Statement (.skp x) := covers_op_kk _ 0xE 0x9E (by simp [encode]) (by simp [encode])
theorem sknp (x : Nibble) : Statement (.sknp x) := covers_op_kk _ 0xE 0xA1 (by simp [encode]) (by simp [encode])
theorem ldVxDT (x : Nibble) : Statement (.ldVxDT x) := covers_op_kk _ 0xF 0x07 (by simp [encode]) (by simp [encode])
theorem ldVxK (x : Nibble) : Statement (.ldVxK x) := covers_op_kk _ 0xF 0x0A (by simp [encode]) (by simp [encode])
theorem ldDTVx (x : Nibble) : Statement (.ldDTVx x) := covers_op_kk _ 0xF 0x15 (by simp [encode]) (by simp [encode])
theorem ldSTVx (x : Nibble) : Statement (.ldSTVx x) := covers_op_kk _ 0xF 0x18 (by simp [encode]) (by simp [encode])
theorem addI (x : Nibble) : Statement (.addI x) := covers_op_kk _ 0xF 0x1E (by simp [encode]) (by simp [encode])
theorem ldF (x : Nibble) : Statement (.ldF x) := covers_op_kk _ 0xF 0x29 (by simp [encode]) (by simp [encode])
theorem ldB (x : Nibble) : Statement (.ldB x) := covers_op_kk _ 0xF 0x33 (by simp [encode]) (by simp [encode])
theorem storeRegs (x : Nibble) : Statement (.storeRegs x) := covers_op_kk _ 0xF 0x55 (by simp [encode]) (by simp [encode])
theorem loadRegs (x : Nibble) : Statement (.loadRegs x) := covers_op_kk _ 0xF 0x65 (by simp [encode]) (by simp [encode])

end Sys2Proof.Laws.RowFit
end

