-- ==== Sys2Proof/Machine/Assembly.lean ====
section
/-! DEFINITION. The assembler text of an instruction (30_encoding.md R81 and the syntax column of R78). -/

namespace Sys2Proof.Machine

/-- One hex digit, upper case. -/
def hexDigit (d : Nat) : Char := "0123456789ABCDEF".toList.getD (d % 16) '0'

/-- The lowest k hex digits of a number, most significant first. -/
def hexDigits : Nat → Nat → List Char
  | 0, _ => []
  | k + 1, v => hexDigits k (v / 16) ++ [hexDigit v]

/-- A register's name, V0 to VF (R81). -/
def asmReg (x : Nibble) : String := String.ofList ('V' :: hexDigits 1 x.toNat)

/-- An immediate byte in hex (R81). -/
def asmByte (kk : Byte) : String := String.ofList ('0' :: 'x' :: hexDigits 2 kk.toNat)

/-- An address in hex (R81). -/
def asmAddr (nnn : Addr12) : String := String.ofList ('0' :: 'x' :: hexDigits 3 nnn.toNat)

/-- A row count in hex (R81). -/
def asmCount (n : Nibble) : String := String.ofList ('0' :: 'x' :: hexDigits 1 n.toNat)

/-- A mnemonic and two operands, separated by a comma (R81). -/
def asmTwo (mnemonic a b : String) : String := mnemonic ++ " " ++ a ++ ", " ++ b

/-- The text of an instruction, row by row of R78; the optional Vy of SHR and SHL is written out. -/
def asmText : Instr → String
  | .sys nnn => "SYS " ++ asmAddr nnn
  | .cls => "CLS"
  | .ret => "RET"
  | .jp nnn => "JP " ++ asmAddr nnn
  | .call nnn => "CALL " ++ asmAddr nnn
  | .seImm x kk => asmTwo "SE" (asmReg x) (asmByte kk)
  | .sneImm x kk => asmTwo "SNE" (asmReg x) (asmByte kk)
  | .seReg x y => asmTwo "SE" (asmReg x) (asmReg y)
  | .ldImm x kk => asmTwo "LD" (asmReg x) (asmByte kk)
  | .addImm x kk => asmTwo "ADD" (asmReg x) (asmByte kk)
  | .ldReg x y => asmTwo "LD" (asmReg x) (asmReg y)
  | .orReg x y => asmTwo "OR" (asmReg x) (asmReg y)
  | .andReg x y => asmTwo "AND" (asmReg x) (asmReg y)
  | .xorReg x y => asmTwo "XOR" (asmReg x) (asmReg y)
  | .addReg x y => asmTwo "ADD" (asmReg x) (asmReg y)
  | .subReg x y => asmTwo "SUB" (asmReg x) (asmReg y)
  | .shrReg x y => asmTwo "SHR" (asmReg x) (asmReg y)
  | .subnReg x y => asmTwo "SUBN" (asmReg x) (asmReg y)
  | .shlReg x y => asmTwo "SHL" (asmReg x) (asmReg y)
  | .sneReg x y => asmTwo "SNE" (asmReg x) (asmReg y)
  | .ldI nnn => asmTwo "LD" "I" (asmAddr nnn)
  | .jpV0 nnn => asmTwo "JP" "V0" (asmAddr nnn)
  | .rnd x kk => asmTwo "RND" (asmReg x) (asmByte kk)
  | .drw x y n => asmTwo "DRW" (asmReg x) (asmReg y) ++ ", " ++ asmCount n
  | .skp x => "SKP " ++ asmReg x
  | .sknp x => "SKNP " ++ asmReg x
  | .ldVxDT x => asmTwo "LD" (asmReg x) "DT"
  | .ldVxK x => asmTwo "LD" (asmReg x) "K"
  | .ldDTVx x => asmTwo "LD" "DT" (asmReg x)
  | .ldSTVx x => asmTwo "LD" "ST" (asmReg x)
  | .addI x => asmTwo "ADD" "I" (asmReg x)
  | .ldF x => asmTwo "LD" "F" (asmReg x)
  | .ldB x => asmTwo "LD" "B" (asmReg x)
  | .storeRegs x => asmTwo "LD" "[I]" (asmReg x)
  | .loadRegs x => asmTwo "LD" (asmReg x) "[I]"

end Sys2Proof.Machine
end

