-- ==== Sys2Proof/Tests/Slice0.lean ====
section
/-! SUPPORT. The model's own tests. Expected results come from the spec: its encodings (30_encoding.md R78), its worked
examples and its test vectors (95_test_vectors.md, each test naming the section it takes its row from). -/

namespace Sys2Proof.Tests

open Sys2Proof.Machine

/-! ## WellFormed: a term the check refuses, and its neighbours -/

theorem test_sys_0e0_is_ill_formed : (Instr.sys 0x0E0).wellFormed = false := by decide
theorem test_sys_0ee_is_ill_formed : (Instr.sys 0x0EE).wellFormed = false := by decide
theorem test_sys_0e1_is_well_formed : (Instr.sys 0x0E1).wellFormed = true := by decide

/-! ## Decoding: one word of every row, written bit by bit from R78's pattern -/

/-- 0123. -/
theorem test_decode_sys : decodeWord 0b0000000100100011#16 = .ok (.sys 0x123) := by decide
/-- 00E0. -/
theorem test_decode_cls : decodeWord 0b0000000011100000#16 = .ok .cls := by decide
/-- 00EE. -/
theorem test_decode_ret : decodeWord 0b0000000011101110#16 = .ok .ret := by decide
/-- 1234. -/
theorem test_decode_jp : decodeWord 0b0001001000110100#16 = .ok (.jp 0x234) := by decide
/-- 2208. -/
theorem test_decode_call : decodeWord 0b0010001000001000#16 = .ok (.call 0x208) := by decide
/-- 3100. -/
theorem test_decode_se_imm : decodeWord 0b0011000100000000#16 = .ok (.seImm 0x1 0x00) := by decide
/-- 4206. -/
theorem test_decode_sne_imm : decodeWord 0b0100001000000110#16 = .ok (.sneImm 0x2 0x06) := by decide
/-- 5340. -/
theorem test_decode_se_reg : decodeWord 0b0101001101000000#16 = .ok (.seReg 0x3 0x4) := by decide
/-- 6A2B. -/
theorem test_decode_ld_imm : decodeWord 0b0110101000101011#16 = .ok (.ldImm 0xA 0x2B) := by decide
/-- 71FF. -/
theorem test_decode_add_imm : decodeWord 0b0111000111111111#16 = .ok (.addImm 0x1 0xFF) := by decide
/-- 8120. -/
theorem test_decode_ld_reg : decodeWord 0b1000000100100000#16 = .ok (.ldReg 0x1 0x2) := by decide
/-- 8011. -/
theorem test_decode_or : decodeWord 0b1000000000010001#16 = .ok (.orReg 0x0 0x1) := by decide
/-- 8012. -/
theorem test_decode_and : decodeWord 0b1000000000010010#16 = .ok (.andReg 0x0 0x1) := by decide
/-- 8013. -/
theorem test_decode_xor : decodeWord 0b1000000000010011#16 = .ok (.xorReg 0x0 0x1) := by decide
/-- 81F4. -/
theorem test_decode_add_reg : decodeWord 0b1000000111110100#16 = .ok (.addReg 0x1 0xF) := by decide
/-- 8F15. -/
theorem test_decode_sub : decodeWord 0b1000111100010101#16 = .ok (.subReg 0xF 0x1) := by decide
/-- 8126. -/
theorem test_decode_shr : decodeWord 0b1000000100100110#16 = .ok (.shrReg 0x1 0x2) := by decide
/-- 8017. -/
theorem test_decode_subn : decodeWord 0b1000000000010111#16 = .ok (.subnReg 0x0 0x1) := by decide
/-- 8F1E. -/
theorem test_decode_shl : decodeWord 0b1000111100011110#16 = .ok (.shlReg 0xF 0x1) := by decide
/-- 9010. -/
theorem test_decode_sne_reg : decodeWord 0b1001000000010000#16 = .ok (.sneReg 0x0 0x1) := by decide
/-- A300. -/
theorem test_decode_ld_i : decodeWord 0b1010001100000000#16 = .ok (.ldI 0x300) := by decide
/-- B123. -/
theorem test_decode_jp_v0 : decodeWord 0b1011000100100011#16 = .ok (.jpV0 0x123) := by decide
/-- C30F. -/
theorem test_decode_rnd : decodeWord 0b1100001100001111#16 = .ok (.rnd 0x3 0x0F) := by decide
/-- D125. -/
theorem test_decode_drw : decodeWord 0b1101000100100101#16 = .ok (.drw 0x1 0x2 0x5) := by decide
/-- E19E. -/
theorem test_decode_skp : decodeWord 0b1110000110011110#16 = .ok (.skp 0x1) := by decide
/-- E1A1. -/
theorem test_decode_sknp : decodeWord 0b1110000110100001#16 = .ok (.sknp 0x1) := by decide
/-- F407. -/
theorem test_decode_ld_vx_dt : decodeWord 0b1111010000000111#16 = .ok (.ldVxDT 0x4) := by decide
/-- F30A. -/
theorem test_decode_ld_vx_k : decodeWord 0b1111001100001010#16 = .ok (.ldVxK 0x3) := by decide
/-- F015. -/
theorem test_decode_ld_dt_vx : decodeWord 0b1111000000010101#16 = .ok (.ldDTVx 0x0) := by decide
/-- F218. -/
theorem test_decode_ld_st_vx : decodeWord 0b1111001000011000#16 = .ok (.ldSTVx 0x2) := by decide
/-- F21E. -/
theorem test_decode_add_i : decodeWord 0b1111001000011110#16 = .ok (.addI 0x2) := by decide
/-- F029. -/
theorem test_decode_ld_f : decodeWord 0b1111000000101001#16 = .ok (.ldF 0x0) := by decide
/-- F033. -/
theorem test_decode_ld_b : decodeWord 0b1111000000110011#16 = .ok (.ldB 0x0) := by decide
/-- F255. -/
theorem test_decode_store : decodeWord 0b1111001001010101#16 = .ok (.storeRegs 0x2) := by decide
/-- F265. -/
theorem test_decode_load : decodeWord 0b1111001001100101#16 = .ok (.loadRegs 0x2) := by decide

/-- 95 section 2.1: the words that are Unknown. -/
theorem test_decode_unknown :
    [0x5001#16, 0x8008#16, 0x800F#16, 0x9001#16, 0xE000#16, 0xE09F#16, 0xF000#16, 0xF0FF#16, 0xF056#16].map decodeWord =
      [.error (.unknown 0x5001), .error (.unknown 0x8008), .error (.unknown 0x800F), .error (.unknown 0x9001),
       .error (.unknown 0xE000), .error (.unknown 0xE09F), .error (.unknown 0xF000), .error (.unknown 0xF0FF),
       .error (.unknown 0xF056)] := by decide

/-- R60: the first byte is bits 15:8. -/
theorem test_decode_bytes_big_endian : decodeBytes [0x12, 0x34, 0xFF] = .ok (.jp 0x234, [0xFF]) := by decide
theorem test_decode_bytes_truncated : decodeBytes [0x12] = .error .truncated := by decide
theorem test_decode_table_word : decodeTableWord 16 0xF265 = some (.loadRegs 2) := by decide

/-! ## A small start state: power-on with one word at 0x200 (95, conventions) -/

/-- Power-on with the word w at 0x200. -/
def start (w : Word) : State := { State.reset with mem := Memory.writeBytes [] 0x200 [hiByte w, loByte w] }

/-- A state with byte b at address a. -/
def poke (s : State) (a : Nat) (b : Byte) : State := { s with mem := Memory.write s.mem a b }

/-- The state after one step. -/
def after (s : State) : State := stepState s

/-! ## One step -/

/-- 95 2.1: PC = 0xFFF faults with addr 0x1000. -/
theorem test_fetch_top : (after (State.reset.setPc 0xFFF)) = (State.reset.setPc 0xFFF).setFault (some ⟨.addressingFault, 0xFFF, none, some 0x1000⟩) := by decide
/-- 95 2.1: PC = 0x1000. -/
theorem test_fetch_above : (after (State.reset.setPc 0x1000)).fault = some ⟨.addressingFault, 0x1000, none, some 0x1000⟩ := by decide
/-- 95 2.1: PC = 0xFFE, 12 00. -/
theorem test_fetch_last_word : (after ((poke (poke State.reset 0xFFE 0x12) 0xFFF 0x00).setPc 0xFFE)).pc = 0x200 := by decide
/-- 95 2.1: an odd PC fetches. -/
theorem test_fetch_odd_pc : (after ((poke (poke State.reset 0x201 0x63) 0x202 0x42).setPc 0x201)) = (((poke (poke State.reset 0x201 0x63) 0x202 0x42).setPc 0x203).setV 3 0x42) := by decide
/-- 95 2.1: 8008 advances PC and changes nothing else. -/
theorem test_unknown_word : after (start 0x8008) = (start 0x8008).setPc 0x202 ∧ stepResult (start 0x8008) = some (.unknown 0x8008) := by decide
/-- 95 2.1: FAULT already set. -/
theorem test_sticky_fault : (let s := (start 0x6001).setFault (some ⟨.stackOverflow, 0x200, some 0x2200, none⟩); after s = s ∧ stepResult s = some (.faulted ⟨.stackOverflow, 0x200, some 0x2200, none⟩)) := by decide
/-- 95 2.2: 0123 is a no-op. -/
theorem test_sys : after (start 0x0123) = (start 0x0123).setPc 0x202 := by decide
/-- 95 2.2: 00EE, SP = 1, STACK[0] = 0x456, slot kept. -/
theorem test_ret : (let s := { start 0x00EE with sp := 1, stack := State.reset.stack.set 0 0x456 }; after s = { s with sp := 0, pc := 0x456 }) := by decide
/-- 95 W5: RET on an empty stack. -/
theorem test_ret_underflow : after (start 0x00EE) = (start 0x00EE).setFault (some ⟨.stackUnderflow, 0x200, some 0x00EE, none⟩) := by decide
/-- 95 2.2: 1234. -/
theorem test_jp : (after (start 0x1234)).pc = 0x234 := by decide
/-- 95 2.2: 2208. -/
theorem test_call : (let t := after (start 0x2208); t.pc = 0x208 ∧ t.sp = 1 ∧ t.stack[0] = 0x202) := by decide
/-- 95 2.2: 2200 with SP = 16. -/
theorem test_call_overflow : (let s := { start 0x2200 with sp := 16 }; after s = s.setFault (some ⟨.stackOverflow, 0x200, some 0x2200, none⟩)) := by decide
/-- 95 2.2: BFFF, V0 = FF. -/
theorem test_jp_v0 : (after ((start 0xBFFF).setV 0 0xFF)).pc = 0x10FE := by decide
/-- 95 2.2: B123 ignores V1. -/
theorem test_jp_v0_not_v1 : (after ((start 0xB123).setV 1 0x50)).pc = 0x123 := by decide
/-- 95 2.3: 3FFF, VF = FF. -/
theorem test_se_imm_taken : (after ((start 0x3FFF).setV 0xF 0xFF)).pc = 0x204 := by decide
/-- 95 2.3: 3100, V1 = 01. -/
theorem test_se_imm_not : (after ((start 0x3100).setV 1 0x01)).pc = 0x202 := by decide
/-- 95 2.3: 4206, V2 = 05. -/
theorem test_sne_imm_taken : (after ((start 0x4206).setV 2 0x05)).pc = 0x204 := by decide
/-- 95 2.3: 4205, V2 = 05. -/
theorem test_sne_imm_not : (after ((start 0x4205).setV 2 0x05)).pc = 0x202 := by decide
/-- 95 2.3: 5340. -/
theorem test_se_reg_taken : (after (((start 0x5340).setV 3 0x7F).setV 4 0x7F)).pc = 0x204 := by decide
/-- 95 2.3: 5340. -/
theorem test_se_reg_not : (after (((start 0x5340).setV 3 0x7F).setV 4 0x7E)).pc = 0x202 := by decide
/-- 95 2.3: 9010. -/
theorem test_sne_reg_taken : (after (((start 0x9010).setV 0 0x01).setV 1 0x02)).pc = 0x204 := by decide
/-- 95 2.3: 9330. -/
theorem test_sne_reg_same : (after (start 0x9330)).pc = 0x202 := by decide
/-- 95 2.4: 6A2B. -/
theorem test_ld_imm : after (start 0x6A2B) = ((start 0x6A2B).setV 0xA 0x2B).setPc 0x202 := by decide
/-- 95 2.4: 7001, V0 = FF. -/
theorem test_add_imm_no_carry : (let t := after ((start 0x7001).setV 0 0xFF); t.getV 0 = 0x00 ∧ t.getV 0xF = 0x00) := by decide
/-- 95 2.4: 7F01, VF = 10. -/
theorem test_add_imm_vf : (after ((start 0x7F01).setV 0xF 0x10)).getV 0xF = 0x11 := by decide
/-- 95 2.4: 8010, V1 = 99. -/
theorem test_ld_reg : (let t := after ((start 0x8010).setV 1 0x99); t.getV 0 = 0x99 ∧ t.getV 1 = 0x99) := by decide
/-- 95 2.4: 8011, VF = 01. -/
theorem test_or_keeps_vf : (let t := after ((((start 0x8011).setV 0 0x01).setV 1 0x02).setV 0xF 0x01); t.getV 0 = 0x03 ∧ t.getV 0xF = 0x01) := by decide
/-- 95 2.4: 8012. -/
theorem test_and : (after (((start 0x8012).setV 0 0xF3).setV 1 0x3F)).getV 0 = 0x33 := by decide
/-- 95 2.4: 8013. -/
theorem test_xor : (after (((start 0x8013).setV 0 0xFF).setV 1 0x0F)).getV 0 = 0xF0 := by decide
/-- 95 2.4: 8F14, VF = 10, V1 = FF. -/
theorem test_add_reg_flag_wins : (after (((start 0x8F14).setV 0xF 0x10).setV 1 0xFF)).getV 0xF = 0x01 := by decide
/-- 95 2.4: 81F4, V1 = FC, VF = 05. -/
theorem test_add_reg_reads_vf_first : (let t := after (((start 0x81F4).setV 1 0xFC).setV 0xF 0x05); t.getV 1 = 0x01 ∧ t.getV 0xF = 0x01) := by decide
/-- 95 2.4: 8015, equal operands do not borrow. -/
theorem test_sub_equal : (let t := after (((start 0x8015).setV 0 0x05).setV 1 0x05); t.getV 0 = 0x00 ∧ t.getV 0xF = 0x01) := by decide
/-- 95 W2. -/
theorem test_sub_borrow : (let t := after (((start 0x8015).setV 0 0x01).setV 1 0x02); t.getV 0 = 0xFF ∧ t.getV 0xF = 0x00) := by decide
/-- 95 2.4: 8126. -/
theorem test_shr_ignores_vy : (let t := after (((start 0x8126).setV 1 0x04).setV 2 0xFF); t.getV 1 = 0x02 ∧ t.getV 0xF = 0x00) := by decide
/-- 95 2.4: 8F06, VF = 03. -/
theorem test_shr_vf : (after ((start 0x8F06).setV 0xF 0x03)).getV 0xF = 0x01 := by decide
/-- 95 2.4: 8017. -/
theorem test_subn_borrow : (let t := after (((start 0x8017).setV 0 0x05).setV 1 0x03); t.getV 0 = 0xFE ∧ t.getV 0xF = 0x00) := by decide
/-- 95 2.4: 8017. -/
theorem test_subn_no_borrow : (let t := after (((start 0x8017).setV 0 0x03).setV 1 0x05); t.getV 0 = 0x02 ∧ t.getV 0xF = 0x01) := by decide
/-- 95 2.4: 801E, V0 = 81. -/
theorem test_shl_out : (let t := after ((start 0x801E).setV 0 0x81); t.getV 0 = 0x02 ∧ t.getV 0xF = 0x01) := by decide
/-- 95 2.4: 801E, V0 = 7F. -/
theorem test_shl_no_out : (let t := after ((start 0x801E).setV 0 0x7F); t.getV 0 = 0xFE ∧ t.getV 0xF = 0x00) := by decide
/-- 95 2.5: AFFF. -/
theorem test_ld_i : (after (start 0xAFFF)).i = 0xFFF := by decide
/-- 95 2.5: F21E, I = 0xFFFF. -/
theorem test_add_i_wraps : (after (((start 0xF21E).setI 0xFFFF).setV 2 0x01)).i = 0x0000 := by decide
/-- 95 2.5: F21E, I = 0x0FFF. -/
theorem test_add_i_no_mask : (let t := after ((((start 0xF21E).setI 0x0FFF).setV 2 0x01).setV 0xF 0x01); t.i = 0x1000 ∧ t.getV 0xF = 0x01) := by decide
/-- 95 2.5: F029, V0 = 1A. -/
theorem test_ld_f : (after ((start 0xF029).setV 0 0x1A)).i = 0x082 := by decide
/-- 95 2.5: F029, V0 = 0F. -/
theorem test_ld_f_top : (after ((start 0xF029).setV 0 0x0F)).i = 0x09B := by decide
/-- 95 2.5: F033, V0 = FE at 0xFFD. -/
theorem test_ld_b : (let t := after (((start 0xF033).setI 0xFFD).setV 0 0xFE); Memory.readBytes t.mem 0xFFD 3 = [0x02, 0x05, 0x04] ∧ t.i = 0xFFD) := by decide
/-- 95 2.5: F033, I = 0x1FE: the lowest failing address. -/
theorem test_ld_b_reserved : (let s := (start 0xF033).setI 0x1FE; after s = s.setFault (some ⟨.addressingFault, 0x200, some 0xF033, some 0x1FE⟩)) := by decide
/-- 95 2.5: F255. -/
theorem test_store : (let t := after (((((start 0xF255).setI 0x400).setV 0 1).setV 1 2).setV 2 3); Memory.readBytes t.mem 0x3FF 5 = [0, 1, 2, 3, 0] ∧ t.i = 0x400) := by decide
/-- 95 2.5: FF55, I = 0xFF1. -/
theorem test_store_all_or_nothing : (let s := ((start 0xFF55).setI 0xFF1).setV 0 0x77; after s = s.setFault (some ⟨.addressingFault, 0x200, some 0xFF55, some 0x1000⟩)) := by decide
/-- 95 2.5: F465, I = 0x050. -/
theorem test_load_font : ((after ((start 0xF465).setI 0x050)).v.toList.take 6) = [0xF0, 0x90, 0x90, 0x90, 0xF0, 0x00] := by decide
/-- 95 2.5: F165, I = 0xFFF. -/
theorem test_load_fault : (let s := (start 0xF165).setI 0xFFF; after s = s.setFault (some ⟨.addressingFault, 0x200, some 0xF165, some 0x1000⟩)) := by decide
/-- 95 2.6: 00E0, VF = 07. -/
theorem test_cls : (let s := ((start 0x00E0).setDisp (togglePixel clearDisplay 5 5)).setV 0xF 0x07; after s = (s.setDisp clearDisplay).setPc 0x202) := by decide
/-- 95 2.6: D012 at (60, 31), C3 3C. -/
theorem test_drw_wrap : (let s := ((poke (poke (start 0xD012) 0x300 0xC3) 0x301 0x3C).setI 0x300).setV 0 60 |>.setV 1 31; let t := after s; t.disp = ([(31,60),(31,61),(31,2),(31,3),(0,62),(0,63),(0,0),(0,1)].foldl (fun d p => togglePixel d p.1 p.2) clearDisplay) ∧ t.getV 0xF = 0) := by decide
/-- 95 2.6: D011, 81 over (0,0) and (0,1). -/
theorem test_drw_collision : (let s := ((poke (start 0xD011) 0x300 0x81).setI 0x300).setDisp (togglePixel (togglePixel clearDisplay 0 0) 0 1); let t := after s; t.disp = togglePixel (togglePixel clearDisplay 0 1) 0 7 ∧ t.getV 0xF = 1) := by decide
/-- 95 2.6: D012, I = 0xFFF. -/
theorem test_drw_fault : (let s := (poke (start 0xD012) 0xFFF 0xFF).setI 0xFFF; after s = s.setFault (some ⟨.addressingFault, 0x200, some 0xD012, some 0x1000⟩)) := by decide
/-- 95 2.6: D010, I = 0xFFFF, VF = 01. -/
theorem test_drw_no_rows : (let s := ((start 0xD010).setI 0xFFFF).setV 0xF 0x01; after s = (s.setV 0xF 0x00).setPc 0x202) := by decide
/-- 95 2.7: E19E, V1 = 15, KEY[5]. -/
theorem test_skp_low_nibble : (after (((start 0xE19E).setV 1 0x15).setKey 5 true)).pc = 0x204 := by decide
/-- 95 2.7: E19E, no key. -/
theorem test_skp_not : (after ((start 0xE19E).setV 1 0x05)).pc = 0x202 := by decide
/-- 95 2.7: E1A1, KEY[5]. -/
theorem test_sknp_pressed : (after (((start 0xE1A1).setV 1 0x05).setKey 5 true)).pc = 0x202 := by decide
/-- 95 2.7: E1A1, KEY[4]. -/
theorem test_sknp_other : (after (((start 0xE1A1).setV 1 0x05).setKey 4 true)).pc = 0x204 := by decide
/-- 95 2.7: F30A, no key. -/
theorem test_key_wait : (let s := (start 0xF30A).setV 3 0xEE; after s = s ∧ stepResult s = some .waiting) := by decide
/-- 95 2.7: F30A, KEY[3] and KEY[9]. -/
theorem test_key_wait_lowest : (let s := ((start 0xF30A).setKey 9 true).setKey 3 true; after s = (s.setV 3 0x03).setPc 0x202 ∧ stepResult s = some .executed) := by decide
/-- 95 2.7: F407, DT = 3C. -/
theorem test_ld_vx_dt : (let t := after ((start 0xF407).setDt 0x3C); t.getV 4 = 0x3C ∧ t.dt = 0x3C) := by decide
/-- 95 2.7: F015, V0 = 05. -/
theorem test_ld_dt_vx : (let t := after ((start 0xF015).setV 0 0x05); t.dt = 0x05 ∧ t.st = 0) := by decide
/-- 95 2.7: F218, V2 = 1E. -/
theorem test_ld_st_vx : (let t := after ((start 0xF218).setV 2 0x1E); t.st = 0x1E ∧ t.dt = 0 ∧ soundGate t = true) := by decide

/-- 95 section 2.4: CFFF is the draw, into VF as an ordinary register, whatever the draw. -/
theorem test_rnd_vf : (after (start 0xCFFF)).getV 0xF = State.reset.randomByte &&& 0xFF := rfl

/-- 95 section 2.4: C300 gives 0 whatever the draw, and R132: exactly one draw. -/
theorem test_rnd_zero_mask : (after (start 0xC300)).getV 3 = State.reset.randomByte &&& 0x00 ∧ (after (start 0xC300)).draws = 1 :=
  ⟨rfl, rfl⟩

/-! ## Host operations -/

/-- 95 section 2.7: DT = 02, ST = 03, one tick. -/
theorem test_tick_both : (let t := tick ((State.reset.setDt 0x02).setSt 0x03); t.dt = 0x01 ∧ t.st = 0x02) := by decide

/-- 95 W4: a timer at 0 stays at 0. -/
theorem test_tick_zero : tick State.reset = State.reset := by decide

/-- 95 section 2.8: load of 12 00. -/
theorem test_load_rom : loadRom (.bytes [0x12, 0x00]) State.reset = (.ok, { State.reset with mem := [(0x200, 0x12)] }) := by decide

/-- 95 section 2.8: the loader's error. -/
theorem test_load_error : loadRom .loaderError (start 0x1234) = (.romUnreadable, start 0x1234) := by decide

/-- 95 section 2.8: 3585 bytes are too many. -/
theorem test_load_too_large : loadRom (.bytes (List.replicate 3585 0x01)) State.reset = (.romTooLarge, State.reset) := by
  have h : Config.romMax < (List.replicate 3585 (0x01 : Byte)).length := by rw [List.length_replicate]; decide
  simp only [loadRom, h, if_true]

/-- 95 W7: reset clears a stray reserved byte and the fault, keeps the program bytes and the keys. -/
theorem test_reset : resetMachine (((((poke (start 0x120C) 0x100 0xAA).setKey 4 true).setDt 0x10).setV 3 0x33).setFault
    (some ⟨.addressingFault, 0x206, some 0xF155, some 0x1000⟩)) = (start 0x120C).setKey 4 true := by decide

/-- 95 section 2.8: the first and the last glyph stand in a reset machine. -/
theorem test_font : Memory.readBytes State.reset.mem 0x050 5 = [0xF0, 0x90, 0x90, 0x90, 0xF0] ∧
    Memory.readBytes State.reset.mem 0x09B 5 = [0xF0, 0x80, 0xF0, 0x80, 0x80] := by decide

/-- R201: power-on from any memory, here one with entries below and above 0x200. -/
theorem test_power_on : powerOn ((poke (start 0x1234) 0x055 0x11).setKey 2 true) = State.reset := by decide

/-- R207: a snapshot with SP = 17 is refused. -/
theorem test_restore_refused : restore { snapshot State.reset with sp := 17 } (start 0x1234) = (.refused, start 0x1234) := by decide

/-- R81: assembler text. -/
theorem test_asm : asmText (.drw 1 0xA 5) = "DRW V1, VA, 0x5" := by decide

/-- The host's placement runs the word as the first instruction after reset. -/
theorem test_with_fetch_word : (after (State.reset.withFetchWord 16 0x6A2B)).getV 0xA = 0x2B := by decide

/-- ROM bytes of a program: 95 P1's first three words. -/
theorem test_assemble : assemble [.ldImm 0 0x00, .ldImm 1 0x05, .addReg 0 1] = [0x60, 0x00, 0x61, 0x05, 0x80, 0x14] := by decide

/-! ## Witnesses: for each statement with hypotheses, a concrete state and operands that meet them -/

/-- a well-formed instruction, SYS next to CLS's word. -/
theorem witness_DecodeOfEncode : (Instr.sys 0x0E1).wellFormed = true ∧ (Instr.drw 0xF 0xF 0xF).wellFormed = true :=
  by decide

/-- a word that decodes. -/
theorem witness_EncodeOfDecode : decodeWord 0x00E1 = .ok (.sys 0x0E1) :=
  by decide

/-- one unknown word of each set. -/
theorem witness_UnknownWordsAreTheListedOnes : [0x5001#16, 0x8008#16, 0x900F#16, 0xE09F#16, 0xF000#16].map decodeWord = [.error (.unknown 0x5001), .error (.unknown 0x8008), .error (.unknown 0x900F), .error (.unknown 0xE09F), .error (.unknown 0xF000)] :=
  by decide

/-- the word of CLS fits row 1 as well. -/
theorem witness_DecodedWordFitsOneRow : decodeWord 0x00E0 = .ok .cls ∧ (Instr.sys 0).row.covers 0x00E0 = true :=
  by decide

/-- the last word of memory. -/
theorem witness_StepRunsDecodedInstruction : (let s := (poke (poke State.reset 0xFFE 0x12) 0xFFF 0x00).setPc 0xFFE; s.fault = none ∧ s.pc.toNat + 1 ≤ 0xFFF ∧ decodeWord (wordOfBytes (Memory.read s.mem s.pc.toNat) (Memory.read s.mem (s.pc.toNat + 1))) = .ok (.jp 0x200)) :=
  by decide

/-- an unknown word at PC. -/
theorem witness_UnknownWordOnlyAdvancesPc : (let s := start 0x5341; s.fault = none ∧ fetch s = .ok 0x5341 ∧ decodeWord 0x5341 = .error (.unknown 0x5341)) :=
  by decide

/-- PC at 0xFFF and at 0x1000. -/
theorem witness_FetchOutsideMemoryFaults : (State.reset.setPc 0xFFF).fault = none ∧ 0xFFF ≤ (State.reset.setPc 0xFFF).pc.toNat ∧ 0xFFF ≤ (State.reset.setPc 0x1000).pc.toNat :=
  by decide

/-- a faulted state, and the two operations that clear it. -/
theorem witness_FaultIsSticky : (let r : FaultRecord := ⟨.stackUnderflow, 0x200, some 0x00EE, none⟩; let s := State.reset.setFault (some r); s.fault = some r ∧ (s.after .reset).fault = none ∧ (snapshot State.reset).wellFormed = true ∧ (s.after (.restore (snapshot State.reset))).fault = none) :=
  by decide

/-- a faulted state. -/
theorem witness_StepStopsExactlyOnFaultedCore : (let r : FaultRecord := ⟨.stackUnderflow, 0x200, some 0x00EE, none⟩; (State.reset.setFault (some r)).fault = some r) :=
  by decide

/-- RET on an empty stack; a fetch fault. -/
theorem witness_FaultsArePrecise : ∃ t r u q, (start 0x00EE).fault = none ∧ step (start 0x00EE) = .next t ∧ t.fault = some r ∧ fetch (start 0x00EE) = .ok 0x00EE ∧ step (State.reset.setPc 0xFFF) = .next u ∧ u.fault = some q ∧ fetch (State.reset.setPc 0xFFF) = .error 0x1000 :=
  ⟨_, _, _, _, rfl, rfl, rfl, rfl, rfl, rfl, rfl⟩

/-- an instruction that raises; the cause of each fault: SP = 16, SP = 0, a sprite row at 0x1000, a digit at 0x1FF, V1 stored to 0x1000, V0 loaded from 0x1000. -/
theorem witness_FaultCauses : (∃ t r, State.reset.fault = none ∧ exec .ret State.reset = .next t ∧ t.fault = some r) ∧ FaultCause (.call 0) { State.reset with sp := 16 } .stackOverflow none ∧ FaultCause .ret State.reset .stackUnderflow none ∧ FaultCause (.drw 0 0 2) (State.reset.setI 0xFFF) .addressingFault (some 0x1000) ∧ FaultCause (.ldB 0) (State.reset.setI 0x1FF) .addressingFault (some 0x1FF) ∧ FaultCause (.storeRegs 1) (State.reset.setI 0xFFF) .addressingFault (some 0x1000) ∧ FaultCause (.loadRegs 0) (State.reset.setI 0x1000) .addressingFault (some 0x1000) :=
  by
  have i1 : indexAddr (State.reset.setI 0xFFF) = 0xFFF := by decide
  have i2 : indexAddr (State.reset.setI 0x1FF) = 0x1FF := by decide
  have i3 : indexAddr (State.reset.setI 0x1000) = 0x1000 := by decide
  refine ⟨⟨_, _, rfl, rfl, rfl⟩, ⟨rfl, ⟨0, rfl⟩, rfl⟩, ⟨rfl, rfl, rfl⟩, ⟨_, rfl, .inl ⟨0, 0, 2, rfl, ?_⟩⟩,
    ⟨_, rfl, .inr (.inl ⟨0, rfl, ?_⟩)⟩, ⟨_, rfl, .inr (.inr (.inl ⟨1, rfl, ?_⟩))⟩, ⟨_, rfl, .inr (.inr (.inr ⟨0, rfl, ?_⟩))⟩⟩ <;>
    simp only [i1, i2, i3, FirstRefused, MayRead, MayWrite] <;> refine ⟨by decide, by decide, by decide, fun b h1 h2 => ?_⟩ <;> omega

/-- power-on. -/
theorem witness_UnfaultedStepAnswersNextState : State.reset.Inv ∧ State.reset.fault = none :=
  ⟨⟨by decide, by decide⟩, rfl⟩

/-- a step from power-on. -/
theorem witness_StepKeepsInv : ∃ t, State.reset.Inv ∧ step State.reset = .next t :=
  ⟨_, ⟨by decide, by decide⟩, rfl⟩

/-- power-on. -/
theorem witness_EveryRunKeepsInv : State.reset.Inv :=
  ⟨by decide, by decide⟩

/-- a store at the lowest writable address, and the byte below it. -/
theorem witness_NoStepWritesReservedRegion : ∃ t, step (((start 0xF055).setI 0x200).setV 0 0x77) = .next t ∧ Memory.read t.mem 0x200 = 0x77 ∧ (0x1FF : Nat) ≤ 0x1FF :=
  ⟨_, rfl, by decide, by decide⟩

/-- a key skip. -/
theorem witness_NoInstructionWritesKeys : ∃ t, exec (.skp 0) (State.reset.setKey 0 true) = .next t :=
  ⟨_, rfl⟩

/-- CLS of a lit display and DRW of a glyph row change it. -/
theorem witness_OnlyClsAndDrwChangeDisplay : ∃ t u, exec .cls (State.reset.setDisp (togglePixel clearDisplay 5 5)) = .next t ∧ t.disp ≠ togglePixel clearDisplay 5 5 ∧ exec (.drw 0 1 1) (State.reset.setI 0x050) = .next u ∧ u.disp ≠ (State.reset.setI 0x050).disp :=
  ⟨_, _, rfl, by decide, rfl, by decide⟩

/-- Fx33 and Fx55 change a byte. -/
theorem witness_OnlyStoresChangeMemory : ∃ t u, exec (.ldB 0) ((State.reset.setI 0x300).setV 0 0xFF) = .next t ∧ Memory.read t.mem 0x302 ≠ Memory.read State.reset.mem 0x302 ∧ exec (.storeRegs 1) ((State.reset.setI 0x300).setV 1 0x11) = .next u ∧ Memory.read u.mem 0x301 ≠ Memory.read State.reset.mem 0x301 :=
  ⟨_, _, rfl, by decide, rfl, by decide⟩

/-- CALL changes SP and a slot, RET changes SP. -/
theorem witness_OnlyCallAndRetChangeStack : ∃ t u, exec (.call 0) (State.reset.setPc 0x202) = .next t ∧ t.sp ≠ State.reset.sp ∧ t.stack[0] ≠ State.reset.stack[0] ∧ exec .ret { State.reset with sp := 16 } = .next u ∧ u.sp ≠ 16 :=
  ⟨_, _, rfl, by decide, by decide, rfl, by decide⟩

/-- Annn changes I, Fx15 DT, Fx18 ST. -/
theorem witness_OnlyTheirLoadsChangeIndexAndTimers : ∃ t u r, exec (.ldI 0x300) State.reset = .next t ∧ t.i ≠ State.reset.i ∧ exec (.ldDTVx 0) (State.reset.setV 0 1) = .next u ∧ u.dt ≠ State.reset.dt ∧ exec (.ldSTVx 0) (State.reset.setV 0 1) = .next r ∧ r.st ≠ State.reset.st :=
  ⟨_, _, _, rfl, by decide, rfl, by decide, rfl, by decide⟩

/-- 8014 and V2; Fx65 with x = 2 and V3. -/
theorem witness_RegistersChangeOnlyAsListed : ∃ t u, exec (.addReg 0 1) State.reset = .next t ∧ mayWriteV (.addReg 0 1) 2 = false ∧ exec (.loadRegs 2) (State.reset.setI 0x050) = .next u ∧ mayWriteV (.loadRegs 2) 3 = false :=
  ⟨_, _, rfl, by decide, rfl, by decide⟩

/-- a jump to itself; nnn = 0xFFF; an odd nnn below it. -/
theorem witness_JumpSetsPc : (0x201 : Addr12) ≠ 0xFFF ∧ (let s := start 0x1200; s.fault = none ∧ fetch s = .ok (encode (.jp 0x200)) ∧ s.pc.toNat = (0x200 : Addr12).toNat) :=
  by decide

/-- SP = 15, SP = 16 and SP = 17. -/
theorem witness_CallPushesOrOverflows : 16 < ({ State.reset with sp := 17 } : State).sp.toNat ∧ ({ State.reset with sp := 15 } : State).sp.toNat < 16 ∧ ({ State.reset with sp := 16 } : State).sp = 16 :=
  by decide

/-- SP = 1, SP = 16, SP = 0 and SP = 17. -/
theorem witness_ReturnPopsOrUnderflows : 16 < ({ State.reset with sp := 17 } : State).sp.toNat ∧ (let a : State := { State.reset with sp := 1 }; 0 < a.sp.toNat ∧ a.sp.toNat - 1 < 16) ∧ (let b : State := { State.reset with sp := 16 }; 0 < b.sp.toNat ∧ b.sp.toNat - 1 < 16) ∧ State.reset.sp = 0 :=
  by decide

/-- a CALL at SP = 15. -/
theorem witness_ReturnUndoesCall : ∃ t u : State, ({ State.reset with sp := 15 } : State).sp.toNat < 16 ∧ exec (.call 0x300) { State.reset with sp := 15 } = .next t ∧ u.sp = t.sp ∧ u.stack = t.stack :=
  ⟨_, _, by decide, rfl, rfl, rfl⟩

/-- a skip at 0xFFB goes to 0xFFF. -/
theorem witness_SkipsCompare : 0xFFF ≤ ((State.reset.setPc 0xFFD).pc + 2).toNat :=
  by decide

/-- DT is not 0. -/
theorem witness_TimerMoves : (State.reset.setDt 1).dt ≠ 0 :=
  by decide

/-- V1 = 0x15 names key 5. -/
theorem witness_KeySkipsReadOneKey : (5 : Nibble).toNat = ((State.reset.setV 1 0x15).getV 1).toNat % 16 :=
  by decide

/-- x is not F, j is neither. -/
theorem witness_AddSetsCarry : (0x0 : Nibble) ≠ 0xF ∧ (0x1 : Nibble) ≠ 0x0 ∧ (0x1 : Nibble) ≠ 0xF :=
  by decide

/-- x is not F, j is neither. -/
theorem witness_SubtractionsSetNoBorrow : (0xE : Nibble) ≠ 0xF ∧ (0x0 : Nibble) ≠ 0xE ∧ (0x0 : Nibble) ≠ 0xF :=
  by decide

/-- x is not F, j is neither. -/
theorem witness_ShiftsSetTheBitShiftedOut : (0x5 : Nibble) ≠ 0xF ∧ (0x6 : Nibble) ≠ 0x5 ∧ (0x6 : Nibble) ≠ 0xF :=
  by decide

/-- j is not x. -/
theorem witness_LoadsMoveTheValue : (0xF : Nibble) ≠ 0x0 :=
  by decide

/-- j = F is not x. -/
theorem witness_AddImmediateAndLogicWriteNoFlag : (0xF : Nibble) ≠ 0x0 :=
  by decide

/-- j is not x. -/
theorem witness_RandomIsOneMaskedDraw : (0xF : Nibble) ≠ 0x3 :=
  by decide

/-- I at 0x200, 0xFFD, 0x1FF and 0xFFE. -/
theorem witness_BcdStoresThreeDigits : State.reset.Inv ∧ (0x200 ≤ indexAddr (State.reset.setI 0x200) ∧ indexAddr (State.reset.setI 0xFFD) + 2 ≤ 0xFFF) ∧ indexAddr (State.reset.setI 0x1FF) < 0x200 ∧ (0xFFF < indexAddr (State.reset.setI 0xFFE) + 2 ∧ 0x200 ≤ indexAddr (State.reset.setI 0xFFE)) :=
  ⟨⟨by decide, by decide⟩, by decide, by decide, by decide⟩

/-- x = F with I at 0x200, 0xFF0, 0x1FF and 0xFF1. -/
theorem witness_BlockStoreWritesRegisters : State.reset.Inv ∧ (0x200 ≤ indexAddr (State.reset.setI 0x200) ∧ indexAddr (State.reset.setI 0xFF0) + (0xF : Nibble).toNat ≤ 0xFFF) ∧ indexAddr (State.reset.setI 0x1FF) < 0x200 ∧ (0xFFF < indexAddr (State.reset.setI 0xFF1) + (0xF : Nibble).toNat ∧ 0x200 ≤ indexAddr (State.reset.setI 0xFF1)) :=
  ⟨⟨by decide, by decide⟩, by decide, by decide, by decide⟩

/-- x = 0 at 0xFFF and x = 1 at 0xFFF; j at and above x. -/
theorem witness_BlockLoadReadsRegisters : indexAddr (State.reset.setI 0xFFF) + (0x0 : Nibble).toNat ≤ 0xFFF ∧ 0xFFF < indexAddr (State.reset.setI 0xFFF) + (0x1 : Nibble).toNat ∧ (0x1 : Nibble).toNat ≤ (0x1 : Nibble).toNat ∧ (0x1 : Nibble).toNat < (0x2 : Nibble).toNat :=
  by decide

/-- F155 at 0x200 with I at 0x202. -/
theorem witness_StoreIsSeenByNextFetch : (let s := (State.reset.setPc 0x202).setI 0x202; s.Inv ∧ 1 ≤ (0x1 : Nibble).toNat ∧ indexAddr s = s.pc.toNat ∧ 0x200 ≤ s.pc.toNat ∧ s.pc.toNat + (0x1 : Nibble).toNat ≤ 0xFFF ∧ ∃ t, exec (.storeRegs 1) s = .next t) :=
  ⟨⟨by decide, by decide⟩, by decide, by decide, by decide, by decide, _, rfl⟩

/-- n = 0 with I = 0xFFFF, and a sprite that ends at 0xFFF; a covered pixel. -/
theorem witness_DrawTogglesSpritePixels : ((0 : Nibble) = 0 ∧ indexAddr (State.reset.setI 0xFF1) + (0xF : Nibble).toNat ≤ 0x1000) ∧ SpriteCovers (State.reset.setI 0x050) 0 1 5 0 0 :=
  ⟨by decide, 0, 0, by decide, by decide, by decide, by decide, by decide⟩

/-- two rows at 0xFFF. -/
theorem witness_DrawOutsideMemoryFaults : (2 : Nibble) ≠ 0 ∧ 0x1000 < indexAddr (State.reset.setI 0xFFF) + (2 : Nibble).toNat :=
  by decide

/-- glyph 0 drawn twice at (0, 0). -/
theorem witness_DrawingTwiceRestoresDisplay : ∃ t u, (0x0 : Nibble) ≠ 0xF ∧ (0x1 : Nibble) ≠ 0xF ∧ indexAddr (State.reset.setI 0x050) + (5 : Nibble).toNat ≤ 0x1000 ∧ exec (.drw 0 1 5) (State.reset.setI 0x050) = .next t ∧ exec (.drw 0 1 5) t = .next u :=
  ⟨_, _, by decide, by decide, by decide, rfl, rfl⟩

/-- F30A with no key and with key 7. -/
theorem witness_KeyWaitContract : (let s := start 0xF30A; s.fault = none ∧ fetch s = .ok (encode (.ldVxK 3)) ∧ (∀ k : Fin 16, s.getKey (BitVec.ofFin k) = false) ∧ (s.setKey 7 true).getKey 7 = true) :=
  by decide

/-- keys 3 and 9 pressed: 3 is pressed and no lower key is; no key pressed. -/
theorem witness_KeyWaitStoresLowestKey : (let s := (State.reset.setKey 9 true).setKey 3 true; s.getKey 3 = true ∧ ∀ j : Fin 16, j.val < 3 → s.getKey (BitVec.ofFin j) = false) ∧ ∀ k : Fin 16, State.reset.getKey (BitVec.ofFin k) = false :=
  by decide

/-- the last row of a glyph. -/
theorem witness_FontIndexPointsAtGlyph : (4 : Nat) < 5 :=
  by decide

/-- the ends of the two regions. -/
theorem witness_ResetRestoresCanonicalState : (0x1FF : Nat) ≤ 0x1FF ∧ (0x200 : Nat) ≤ 0x200 :=
  by decide

/-- the longest ROM, one byte more, and bytes just outside a ROM. -/
theorem witness_RomLoadIsAllOrNothing : State.reset.Inv ∧ (List.replicate 0xE00 (0x01 : Byte)).length ≤ 0xE00 ∧ 0xE00 < (List.replicate 0xE01 (0x01 : Byte)).length ∧ ((0x1FF : Nat) < 0x200 ∨ 0x200 + [(0x01 : Byte)].length ≤ 0x1FF) ∧ ((0x201 : Nat) < 0x200 ∨ 0x200 + [(0x01 : Byte)].length ≤ 0x201) :=
  ⟨⟨by decide, by decide⟩, by rw [List.length_replicate], by rw [List.length_replicate]; decide, .inl (by decide), .inr (by decide)⟩

/-- a legal state, a restore that succeeds, and SP = 17. -/
theorem witness_SnapshotRoundTrip : State.reset.Inv ∧ (∃ t, restore (snapshot State.reset) (start 0x1234) = (.ok, t)) ∧ 16 < ({ snapshot State.reset with sp := 17 } : Snapshot).sp.toNat :=
  ⟨⟨by decide, by decide⟩, ⟨_, rfl⟩, by decide⟩

/-- the last reserved address. -/
theorem witness_ResetIsIdempotent : (0x1FF : Nat) ≤ 0x1FF :=
  by decide

/-- another key, and a state in which any-key answers. -/
theorem witness_SetKeySetsOneKey : (1 : Nibble) ≠ 0 ∧ readAnyKey (State.reset.setKey 3 true) = some 3 :=
  by decide

end Sys2Proof.Tests
end

section
/-! SUPPORT. What the next state of an instruction may differ in from the state it executes from: the writer columns of
10_state.md R21 to R33, said once over all 35 instructions, and the statements about who writes what read off it. -/

namespace Sys2Proof.Machine

/-! ## Registers an instruction does not write (10_state R23)

The hypotheses are mayWriteV = false, as it computes for the instructions that use the update. -/

theorem State.getV_setV_of_unwritten (s : State) {x j : Nibble} (b : Byte) (h : (j == x) = false) :
    (s.setV x b).getV j = s.getV j :=
  s.getV_setV_ne x j b (Ne.symm (by simpa using h))

theorem State.getV_setVThenFlag_of_unwritten (s : State) {x j : Nibble} (b : Byte) (f : Bool)
    (h : (j == x || j == 0xF) = false) : (s.setVThenFlag x b f).getV j = s.getV j := by
  obtain ⟨hx, hF⟩ := Bool.or_eq_false_iff.mp h
  exact ((s.setV x b).getV_setV_of_unwritten _ hF).trans (s.getV_setV_of_unwritten b hx)

theorem State.getV_setRegs_of_unwritten (s : State) {x j : Nibble} {bytes : List Byte} (hlen : bytes.length = x.toNat + 1)
    (h : decide (j.toNat ≤ x.toNat) = false) : (s.setRegs bytes).getV j = s.getV j := by
  have hj : ¬ j.toNat < bytes.length := by
    have := of_decide_eq_false h
    omega
  rw [getV_setRegs, dif_neg hj]

/-! ## The effect of an instruction -/

/-- `Effect s i t`: executing i from s may give t. A constructor names the fields of s that t replaces; every other field is
that of s. A fault discards all but PC and FAULT (60_exceptions R172), so it is a case of `control`. -/
inductive Effect (s : State) : Instr → State → Prop where
  | control {i : Instr} (pc : Word) (fault : Option FaultRecord) : Effect s i { s with pc := pc, fault := fault }
  | ret (sp : Byte) (pc : Word) : Effect s .ret { s with sp := sp, pc := pc }
  | call (nnn : Addr12) (sp : Byte) (stack : Vector Word 16) (pc : Word) :
      Effect s (.call nnn) { s with sp := sp, stack := stack, pc := pc }
  | registers {i : Instr} (v : Vector Byte 16) (draws : Nat)
      (frame : ∀ j, mayWriteV i j = false → { s with v := v, draws := draws }.getV j = s.getV j) :
      Effect s i { s with v := v, draws := draws }
  | ldI (nnn : Addr12) (a : Word) : Effect s (.ldI nnn) { s with i := a }
  | addI (x : Nibble) (a : Word) : Effect s (.addI x) { s with i := a }
  | ldF (x : Nibble) (a : Word) : Effect s (.ldF x) { s with i := a }
  | ldDTVx (x : Nibble) (b : Byte) : Effect s (.ldDTVx x) { s with dt := b }
  | ldSTVx (x : Nibble) (b : Byte) : Effect s (.ldSTVx x) { s with st := b }
  | ldB (x : Nibble) (m : Memory) : Effect s (.ldB x) { s with mem := m }
  | storeRegs (x : Nibble) (m : Memory) : Effect s (.storeRegs x) { s with mem := m }
  | cls (d : Display) : Effect s .cls { s with disp := d }
  | drw (x y n : Nibble) (d : Display) (v : Vector Byte 16)
      (frame : ∀ j, mayWriteV (.drw x y n) j = false → { s with disp := d, v := v }.getV j = s.getV j) :
      Effect s (.drw x y n) { s with disp := d, v := v }

theorem Effect.of_next {i : Instr} {s t u : State} (h : (.next u : Result) = .next t) (hu : Effect s i u) : Effect s i t := by
  cases h
  exact hu

theorem Effect.of_raise {i : Instr} {kind : FaultKind} {addr : Option Nat} {s t : State} (h : raise i kind addr s = .next t) :
    Effect s i t :=
  .of_next h (.control _ _)

theorem Effect.skipIf (i : Instr) (s : State) (c : Bool) : Effect s i (s.skipIf c) := by
  cases c
  · exact .control s.pc s.fault
  · exact .control (s.pc + 2) s.fault

/-- Every next state of an instruction is an effect of it: the one walk through the meanings. -/
theorem exec_next_effect {i : Instr} {s t : State} (h : exec i s = .next t) : Effect s i t := by
  cases i
  case sys | jp | jpV0 => exact .of_next h (.control _ _)
  case seImm | sneImm | seReg | sneReg | skp | sknp => exact .of_next h (.skipIf _ s _)
  case ret =>
    simp only [exec, execRet] at h
    split at h
    · exact .of_raise h
    · split at h
      · exact .of_next h (.ret _ _)
      · cases h
  case call nnn =>
    simp only [exec, execCall] at h
    split at h
    · exact .of_raise h
    · split at h
      · exact .of_next h (.call nnn _ _ _)
      · cases h
  case ldImm | addImm | ldReg | orReg | andReg | xorReg | ldVxDT =>
    exact .of_next h (.registers _ _ fun _ hj => s.getV_setV_of_unwritten _ hj)
  case addReg | subReg | shrReg | subnReg | shlReg =>
    exact .of_next h (.registers _ _ fun _ hj => s.getV_setVThenFlag_of_unwritten _ _ hj)
  case rnd => exact .of_next h (.registers _ _ fun _ hj => s.countDraw.getV_setV_of_unwritten _ hj)
  case ldVxK =>
    simp only [exec, execLdVxK] at h
    split at h
    · exact .of_next h (.control _ _)
    · exact .of_next h (.registers _ _ fun _ hj => s.getV_setV_of_unwritten _ hj)
  case loadRegs x =>
    simp only [exec, execLoadRegs] at h
    split at h
    · exact .of_raise h
    · next bytes hread =>
      have hlen : bytes.length = x.toNat + 1 := by rw [(memRead_ok hread).2, Memory.length_readBytes]
      exact .of_next h (.registers _ _ fun _ hj => s.getV_setRegs_of_unwritten hlen hj)
  case ldI nnn => exact .of_next h (.ldI nnn _)
  case addI x => exact .of_next h (.addI x _)
  case ldF x => exact .of_next h (.ldF x _)
  case ldDTVx x => exact .of_next h (.ldDTVx x _)
  case ldSTVx x => exact .of_next h (.ldSTVx x _)
  case ldB x =>
    rcases storeThroughI_cases (.ldB x) (bcdDigits (s.getV x)) s with ⟨_, _, hraise⟩ | ⟨_, hstore⟩
    · exact .of_raise (hraise.symm.trans h)
    · exact .of_next (hstore.symm.trans h) (.ldB x _)
  case storeRegs x =>
    rcases storeThroughI_cases (.storeRegs x) (regsUpTo x s) s with ⟨_, _, hraise⟩ | ⟨_, hstore⟩
    · exact .of_raise (hraise.symm.trans h)
    · exact .of_next (hstore.symm.trans h) (.storeRegs x _)
  case cls => exact .of_next h (.cls _)
  case drw x y n =>
    simp only [exec, execDrw] at h
    split at h
    · exact .of_raise h
    · exact .of_next h (.drw x y n _ _ fun _ hj => (s.setDisp _).getV_setV_of_unwritten _ hj)

/-! ## Who writes what (10_state.md) -/

/-- Settles O18: no effect replaces KEY. -/
theorem noInstructionWritesKeys : Obligations.NoInstructionWritesKeys := by
  intro i s t h
  cases exec_next_effect h <;> rfl

/-- Settles O19: the only effects that replace DISP are those of CLS and DRW. -/
theorem onlyClsAndDrwChangeDisplay : Obligations.OnlyClsAndDrwChangeDisplay := by
  intro i s t h hdisp
  cases exec_next_effect h with
  | cls => exact .inl rfl
  | drw x y n => exact .inr ⟨x, y, n, rfl⟩
  | _ => exact absurd rfl hdisp

/-- Settles O22: the only effects that replace I, DT or ST are those of their loads. -/
theorem onlyTheirLoadsChangeIndexAndTimers : Obligations.OnlyTheirLoadsChangeIndexAndTimers := by
  intro i s t h
  have heffect := exec_next_effect h
  refine ⟨fun hi => ?_, fun hdt => ?_, fun hst => ?_⟩
  · cases heffect with
    | ldI nnn => exact .inl ⟨nnn, rfl⟩
    | addI x => exact .inr (.inl ⟨x, rfl⟩)
    | ldF x => exact .inr (.inr ⟨x, rfl⟩)
    | _ => exact absurd rfl hi
  · cases heffect with
    | ldDTVx x => exact ⟨x, rfl⟩
    | _ => exact absurd rfl hdt
  · cases heffect with
    | ldSTVx x => exact ⟨x, rfl⟩
    | _ => exact absurd rfl hst

/-- Settles O23: the effects that replace V registers carry the frame of the instruction's "writes" column. -/
theorem registersChangeOnlyAsListed : Obligations.RegistersChangeOnlyAsListed := by
  intro i s t j h hj
  cases exec_next_effect h with
  | registers _ _ frame => exact frame j hj
  | drw _ _ _ _ _ frame => exact frame j hj
  | _ => rfl

/-- Settles O21, by the three ways an instruction can leave the stack. -/
theorem onlyCallAndRetChangeStack : Obligations.OnlyCallAndRetChangeStack := by
  intro i s t h
  rcases exec_next_stack_cases h with ⟨hsp, hstack⟩ | ⟨rfl, -, -, -, hstack⟩ | ⟨nnn, hs, rfl, -, hstack⟩
  · exact ⟨fun hne => absurd hsp hne, fun k _ hne => absurd (by rw [hstack]) hne⟩
  · exact ⟨fun _ => .inl rfl, fun k _ hne => absurd (by rw [hstack]) hne⟩
  · refine ⟨fun _ => .inr ⟨nnn, rfl⟩, fun k hk hne => ⟨⟨nnn, rfl⟩, ?_⟩⟩
    by_contra hks
    exact hne (by simp only [hstack, Vector.getElem_set_ne hs hk (Ne.symm hks)])

end Sys2Proof.Machine
end

section
/-! SUPPORT. The legal states are an invariant of the step: the memory stays canonical (20_memory.md R50) because only a
checked store changes it, the stack depth stays at most 16 (10_state.md R26) because only CALL adds to it, below 16. -/

namespace Sys2Proof.Machine

theorem exec_next_mem_wf {i : Instr} {s t : State} (hwf : Memory.wf s.mem = true) (h : exec i s = .next t) :
    Memory.wf t.mem = true := by
  rcases exec_next_mem_cases h with hmem | ⟨bytes, hok, rfl, -⟩
  · rwa [hmem]
  · rcases firstFailing_writable_none.mp hok with hempty | ⟨-, hfits⟩
    · rwa [List.length_eq_zero_iff.mp hempty]
    · exact Memory.wf_writeBytes hwf _ _ hfits

theorem exec_next_sp_le {i : Instr} {s t : State} (hsp : s.sp.toNat ≤ Config.stackDepth) (h : exec i s = .next t) :
    t.sp.toNat ≤ Config.stackDepth := by
  rcases exec_next_stack_cases h with ⟨hkeep, -⟩ | ⟨-, hne, -, hpop, -⟩ | ⟨-, hroom, -, hpush, -⟩
  · rwa [hkeep]
  · rw [hpop]; bv_omega
  · rw [hpush]; bv_omega

theorem exec_keeps_inv {i : Instr} {s t : State} (hinv : s.Inv) (h : exec i s = .next t) : t.Inv := by
  obtain ⟨hwf, hsp⟩ := hinv
  exact ⟨exec_next_mem_wf hwf h, exec_next_sp_le hsp h⟩

/-- Settles O14, by the three things a step of an unfaulted core can do; a fetch fault and an unknown word touch neither the
memory nor the stack. -/
theorem stepKeepsInv : Obligations.StepKeepsInv := by
  intro s t hinv h
  cases hfault : s.fault with
  | some r => simp [step_of_fault hfault] at h
  | none =>
    rcases step_cases hfault with ⟨a, -, hstep⟩ | ⟨w, e, -, -, hstep⟩ | ⟨w, i, -, -, hstep⟩ <;> rw [hstep] at h
    · cases h; exact hinv
    · cases h; exact hinv
    · exact exec_keeps_inv (s := s.advancePc) hinv h

/-- Settles O15: power-on lists no byte and its stack is empty. -/
theorem powerOnStateHasInv : Obligations.PowerOnStateHasInv :=
  ⟨Memory.wf_nil, Nat.zero_le _⟩

end Sys2Proof.Machine
end

section
/-! SUPPORT. Stores (20_memory.md): which bytes an instruction can change, that a step changes none below 0x200, and what the
bytes of a block store read as afterwards. -/

namespace Sys2Proof.Machine

/-! ## The bytes an instruction changes (20_memory R51, R56, R61) -/

/-- A byte that an instruction changes lies in its store through I, and the whole store is above the reserved region. -/
theorem exec_next_changed_byte {i : Instr} {s t : State} {a : Nat} (h : exec i s = .next t)
    (hne : Memory.read t.mem a ≠ Memory.read s.mem a) :
    ∃ bytes : List Byte, Config.progStart ≤ indexAddr s ∧ indexAddr s ≤ a ∧ a < indexAddr s + bytes.length ∧
      ((∃ x, i = .ldB x ∧ bytes = bcdDigits (s.getV x)) ∨ (∃ x, i = .storeRegs x ∧ bytes = regsUpTo x s)) := by
  rcases exec_next_mem_cases h with hmem | ⟨bytes, hok, rfl, hstore⟩
  · exact absurd (by rw [hmem]) hne
  · have hin : indexAddr s ≤ a ∧ a < indexAddr s + bytes.length := by
      by_contra hout
      exact hne (Memory.read_writeBytes_outside _ _ _ _ (by omega))
    obtain ⟨hlo, hhi⟩ := hin
    rcases firstFailing_writable_none.mp hok with hempty | ⟨hprog, -⟩
    · omega
    · exact ⟨bytes, hprog, hlo, hhi, hstore⟩

theorem exec_keeps_reserved {i : Instr} {s t : State} {a : Nat} (h : exec i s = .next t) (ha : a < Config.progStart) :
    Memory.read t.mem a = Memory.read s.mem a := by
  by_contra hne
  obtain ⟨_, hprog, hlo, -, -⟩ := exec_next_changed_byte h hne
  omega

/-- Settles O20: a store of LD B is 3 bytes long, one of LD [I], Vx is x + 1. -/
theorem onlyStoresChangeMemory : Obligations.OnlyStoresChangeMemory := by
  intro i s t a h hne
  obtain ⟨bytes, -, hlo, hhi, ⟨x, rfl, rfl⟩ | ⟨x, rfl, rfl⟩⟩ := exec_next_changed_byte h hne
  · rw [length_bcdDigits] at hhi
    exact .inl ⟨x, rfl, hlo, by omega⟩
  · rw [length_regsUpTo] at hhi
    exact .inr ⟨x, rfl, hlo, by omega⟩

/-- Settles O17: of what a step can do, only an executed instruction changes memory. -/
theorem noStepWritesReservedRegion : Obligations.NoStepWritesReservedRegion := by
  intro s t a h ha
  cases hfault : s.fault with
  | some r => simp [step_of_fault hfault] at h
  | none =>
    rcases step_cases hfault with ⟨_, -, hstep⟩ | ⟨_, _, -, -, hstep⟩ | ⟨_, i, -, -, hstep⟩ <;> rw [hstep] at h
    · cases h; rfl
    · cases h; rfl
    · exact exec_keeps_reserved (s := s.advancePc) h (Nat.lt_succ_of_le ha)

/-! ## A store that fits, and what a block store leaves in memory (20_memory R57, 43_index_memory R144) -/

theorem storeThroughI_of_le (i : Instr) (bytes : List Byte) (s : State) (hlo : Config.progStart ≤ indexAddr s)
    (hhi : indexAddr s + bytes.length ≤ Config.memSize) :
    storeThroughI i bytes s = .next { s with mem := Memory.writeBytes s.mem (indexAddr s) bytes } := by
  rw [storeThroughI, memWrite_of_le s hlo hhi]

theorem exec_storeRegs_of_le (x : Nibble) (s : State) (hlo : Config.progStart ≤ indexAddr s)
    (hhi : indexAddr s + (x.toNat + 1) ≤ Config.memSize) :
    exec (.storeRegs x) s = .next { s with mem := Memory.writeBytes s.mem (indexAddr s) (regsUpTo x s) } :=
  storeThroughI_of_le _ _ s hlo (by rwa [length_regsUpTo])

theorem read_writeBytes_regsUpTo {m : Memory} (hwf : Memory.wf m = true) {a : Nat} {x : Nibble} (s : State)
    (hhi : a + (x.toNat + 1) ≤ Config.memSize) (j : Nibble) (hj : j.toNat ≤ x.toNat) :
    Memory.read (Memory.writeBytes m a (regsUpTo x s)) (a + j.toNat) = s.getV j := by
  rw [Memory.read_writeBytes_inside hwf a _ (by rwa [length_regsUpTo]) j.toNat (by rw [length_regsUpTo]; omega),
    getElem_regsUpTo x j s hj]

/-- Settles O44: the store starts at PC, so the two bytes fetched are V0 and V1 (20_memory R67). -/
theorem storeIsSeenByNextFetch : Obligations.StoreIsSeenByNextFetch := by
  rintro x s t ⟨hwf, -⟩ hx hpc hlo hhi h
  have hfits : s.pc.toNat + (x.toNat + 1) ≤ Config.memSize := Nat.succ_le_succ hhi
  rw [exec_storeRegs_of_le x s (by rwa [hpc]) (by rwa [hpc]), hpc] at h
  cases h
  have hread := read_writeBytes_regsUpTo hwf s hfits
  have hV0 := hread 0x0 (Nat.zero_le _)
  have hV1 := hread 0x1 hx
  rw [fetch_of_lt (by change s.pc.toNat + 1 < _; omega)]
  exact congrArg Except.ok (congrArg₂ wordOfBytes hV0 hV1)

end Sys2Proof.Machine
end

section
/-! SUPPORT. The decoder and the encoder are inverse to each other (30_encoding.md R77, R78): the word of a well-formed
instruction decodes to it, and a word that decodes is the word of the well-formed instruction it decodes to. The words left
over are the Unknown words (R79). -/

namespace Sys2Proof

/-! ## A word that is encoded decodes (R77, R78) -/

theorem wordNNN_inj {op : Nibble} {a b : Addr12} : wordNNN op a = wordNNN op b ↔ a = b :=
  ⟨fun h => by simpa using congrArg fieldNNN h, fun h => h ▸ rfl⟩

/-- The ill-formed SYS terms are those whose words are CLS and RET. -/
theorem sys_wellFormed_iff (nnn : Addr12) :
    (Instr.sys nnn).wellFormed = true ↔ encode (.sys nnn) ≠ 0x00E0#16 ∧ encode (.sys nnn) ≠ 0x00EE#16 := by
  have hcls : encode (.sys nnn) = 0x00E0#16 ↔ nnn = 0x0E0 := wordNNN_inj (op := 0x0) (b := 0x0E0)
  have hret : encode (.sys nnn) = 0x00EE#16 ↔ nnn = 0x0EE := wordNNN_inj (op := 0x0) (b := 0x0EE)
  simp [Instr.wellFormed, hcls, hret]

theorem decode0_encode_sys {nnn : Addr12} (hwf : (Instr.sys nnn).wellFormed = true) :
    decode0 (encode (.sys nnn)) = .ok (.sys nnn) := by
  obtain ⟨hcls, hret⟩ := (sys_wellFormed_iff nnn).mp hwf
  rw [decode0, if_neg hcls, if_neg hret, encode, fieldNNN_wordNNN]

/-- Outside the row of SYS a word says by its fields which instruction it is: op in most families, and the low nibble or the
low byte in the families 0x8, 0xE and 0xF. -/
theorem decodeWord_encode {i : Instr} (hwf : i.wellFormed = true) : decodeWord (encode i) = .ok i := by
  cases i
  case sys nnn => exact (decodeWord_op0 _ (fieldOp_wordNNN ..)).trans (decode0_encode_sys hwf)
  case cls | ret => decide
  case jp | call | seImm | sneImm | ldImm | addImm | ldI | jpV0 | rnd | drw | seReg | sneReg => simp [encode, decodeWord]
  case ldReg | orReg | andReg | xorReg | addReg | subReg | shrReg | subnReg | shlReg => simp [encode, decodeWord, decode8]
  case skp | sknp => simp [encode, decodeWord, decodeE]
  case ldVxDT | ldVxK | ldDTVx | ldSTVx | addI | ldF | ldB | storeRegs | loadRegs => simp [encode, decodeWord, decodeF]

theorem decodeBytes_encodeBytes {i : Instr} (hwf : i.wellFormed = true) (rest : List Byte) :
    decodeBytes (encodeBytes i ++ rest) = .ok (i, rest) := by
  simp [encodeBytes, decodeBytes, decodeWord_encode hwf, Except.map]

/-- Settles O1, by evaluation of the decoder. -/
theorem sampleWordsDecode : Obligations.SampleWordsDecode := by
  unfold Obligations.SampleWordsDecode
  decide

/-- Settles O2: the bytes are read back as the word, and the word decodes by its fields. -/
theorem decodeOfEncode : Obligations.DecodeOfEncode :=
  fun _ hwf => ⟨decodeWord_encode hwf, decodeBytes_encodeBytes hwf⟩

/-! ## What a word decodes to (R77, R79) -/

/-- The five sets of 30_encoding R79. -/
def UnknownWord (w : Word) : Prop :=
  (fieldOp w = 0x5 ∧ fieldN w ≠ 0) ∨
  (fieldOp w = 0x8 ∧ fieldN w ∈ [0x8, 0x9, 0xA, 0xB, 0xC, 0xD, 0xF]) ∨
  (fieldOp w = 0x9 ∧ fieldN w ≠ 0) ∨
  (fieldOp w = 0xE ∧ fieldKK w ∉ [0x9E, 0xA1]) ∨
  (fieldOp w = 0xF ∧ fieldKK w ∉ [0x07, 0x0A, 0x15, 0x18, 0x1E, 0x29, 0x33, 0x55, 0x65])

/-- `DecodesTo w r`: the answer r is right for the word w. An instruction keeps every bit of w and is well-formed; a refusal
names w, which is one of the words of R79. -/
inductive DecodesTo (w : Word) : Except DecodeError Instr → Prop where
  | ok {i : Instr} (henc : encode i = w) (hwf : i.wellFormed = true) : DecodesTo w (.ok i)
  | unknown (hw : UnknownWord w) : DecodesTo w (.error (.unknown w))

section
variable {w : Word}

theorem wordXKK_of_fields {op : Nibble} {kk : Byte} (hop : fieldOp w = op) (hkk : fieldKK w = kk) :
    wordXKK op (fieldX w) kk = w :=
  hkk ▸ wordXKK_fields op w hop

theorem wordXYN_of_fields {op n : Nibble} (hop : fieldOp w = op) (hn : fieldN w = n) :
    wordXYN op (fieldX w) (fieldY w) n = w :=
  hn ▸ wordXYN_fields op w hop

theorem decode0_decodesTo (hop : fieldOp w = 0x0#4) : DecodesTo w (decode0 w) := by
  have hsys : encode (.sys (fieldNNN w)) = w := wordNNN_fields _ w hop
  unfold decode0
  split_ifs with hcls hret
  · exact .ok hcls.symm rfl
  · exact .ok hret.symm rfl
  · exact .ok hsys ((sys_wellFormed_iff _).mpr ⟨hsys.symm ▸ hcls, hsys.symm ▸ hret⟩)

theorem decode8_decodesTo (hop : fieldOp w = 0x8#4) : DecodesTo w (decode8 w) := by
  unfold decode8
  split_ifs
  case neg =>
    refine .unknown (.inr (.inl ⟨hop, ?_⟩))
    have := nibble_cases (fieldN w)
    simp_all
  all_goals exact .ok (wordXYN_of_fields hop ‹_›) rfl

theorem decodeE_decodesTo (hop : fieldOp w = 0xE#4) : DecodesTo w (decodeE w) := by
  unfold decodeE
  split_ifs
  case neg => exact .unknown (.inr (.inr (.inr (.inl ⟨hop, by simp_all⟩))))
  all_goals exact .ok (wordXKK_of_fields hop ‹_›) rfl

theorem decodeF_decodesTo (hop : fieldOp w = 0xF#4) : DecodesTo w (decodeF w) := by
  unfold decodeF
  split_ifs
  case neg => exact .unknown (.inr (.inr (.inr (.inr ⟨hop, by simp_all⟩))))
  all_goals exact .ok (wordXKK_of_fields hop ‹_›) rfl

end

/-- Every answer of the decoder is right: the one walk through its tree. -/
theorem decodeWord_decodesTo (w : Word) : DecodesTo w (decodeWord w) := by
  rcases nibble_cases (fieldOp w) with
    hop | hop | hop | hop | hop | hop | hop | hop | hop | hop | hop | hop | hop | hop | hop | hop
  · rw [decodeWord_op0 w hop]; exact decode0_decodesTo hop
  · rw [decodeWord_op1 w hop]; exact .ok (wordNNN_fields _ w hop) rfl
  · rw [decodeWord_op2 w hop]; exact .ok (wordNNN_fields _ w hop) rfl
  · rw [decodeWord_op3 w hop]; exact .ok (wordXKK_fields _ w hop) rfl
  · rw [decodeWord_op4 w hop]; exact .ok (wordXKK_fields _ w hop) rfl
  · rw [decodeWord_op5 w hop]
    split_ifs with hn
    · exact .ok (wordXYN_of_fields hop hn) rfl
    · exact .unknown (.inl ⟨hop, hn⟩)
  · rw [decodeWord_op6 w hop]; exact .ok (wordXKK_fields _ w hop) rfl
  · rw [decodeWord_op7 w hop]; exact .ok (wordXKK_fields _ w hop) rfl
  · rw [decodeWord_op8 w hop]; exact decode8_decodesTo hop
  · rw [decodeWord_op9 w hop]
    split_ifs with hn
    · exact .ok (wordXYN_of_fields hop hn) rfl
    · exact .unknown (.inr (.inr (.inl ⟨hop, hn⟩)))
  · rw [decodeWord_opA w hop]; exact .ok (wordNNN_fields _ w hop) rfl
  · rw [decodeWord_opB w hop]; exact .ok (wordNNN_fields _ w hop) rfl
  · rw [decodeWord_opC w hop]; exact .ok (wordXKK_fields _ w hop) rfl
  · rw [decodeWord_opD w hop]; exact .ok (wordXYN_fields _ w hop) rfl
  · rw [decodeWord_opE w hop]; exact decodeE_decodesTo hop
  · rw [decodeWord_opF w hop]; exact decodeF_decodesTo hop

theorem encode_of_decodeWord {w : Word} {i : Instr} (h : decodeWord w = .ok i) : encode i = w ∧ i.wellFormed = true := by
  have hright := decodeWord_decodesTo w
  rw [h] at hright
  cases hright with
  | ok henc hwf => exact ⟨henc, hwf⟩

/-- Settles O3, by the walk through the decoder's tree. -/
theorem encodeOfDecode : Obligations.EncodeOfDecode :=
  fun _ _ => encode_of_decodeWord

/-! ## The Unknown words (R79) -/

theorem unknown_of_decodeWord {w : Word} {e : DecodeError} (h : decodeWord w = .error e) :
    e = .unknown w ∧ UnknownWord w := by
  have hright := decodeWord_decodesTo w
  rw [h] at hright
  cases hright with
  | unknown hw => exact ⟨rfl, hw⟩

/-- No row of R78 holds a word of the five sets. -/
theorem not_unknownWord_encode (i : Instr) : ¬ UnknownWord (encode i) := by
  cases i
  case cls | ret => unfold UnknownWord; decide
  all_goals simp [encode, UnknownWord]

/-- Settles O4: a refused word is in the five sets, and a word in them cannot decode, as it would be an encoding. -/
theorem unknownWordsAreTheListedOnes : Obligations.UnknownWordsAreTheListedOnes := by
  intro w
  refine ⟨⟨fun ⟨_, h⟩ => (unknown_of_decodeWord h).2, fun hw => ?_⟩, fun _ h => (unknown_of_decodeWord h).1⟩
  cases h : decodeWord w with
  | error e => exact ⟨e, rfl⟩
  | ok i => exact absurd ((encode_of_decodeWord h).1.symm ▸ hw) (not_unknownWord_encode i)

/-! ## The rows of the opcode map (R78) -/

theorem row_covers_encode (i : Instr) : i.row.covers (encode i) = true := by
  open Laws.RowFit in
  cases i
  exacts [sys _, cls, ret, jp _, call _, seImm _ _, sneImm _ _, seReg _ _, ldImm _ _, addImm _ _, ldReg _ _, orReg _ _,
    andReg _ _, xorReg _ _, addReg _ _, subReg _ _, shrReg _ _, subnReg _ _, shlReg _ _, sneReg _ _, ldI _, jpV0 _,
    rnd _ _, drw _ _ _, skp _, sknp _, ldVxDT _, ldVxK _, ldDTVx _, ldSTVx _, addI _, ldF _, ldB _, storeRegs _, loadRegs _]

section
variable {w : Word}

/-- A word of a row has the row's pattern in every field that the row fixes whole. -/
theorem extract_of_covers {pattern mask : Word} (h : OpcodeRow.covers ⟨pattern, mask⟩ w = true) (start len : Nat)
    (hmask : mask.extractLsb' start len = BitVec.allOnes len) : w.extractLsb' start len = pattern.extractLsb' start len := by
  have hw : w &&& mask = pattern := beq_iff_eq.mp h
  rw [← hw, BitVec.extractLsb'_and, hmask, BitVec.and_allOnes]

theorem eq_of_covers {pattern : Word} (h : OpcodeRow.covers ⟨pattern, 0xFFFF⟩ w = true) : pattern = w := by
  simpa using (extract_of_covers h 0 16 (by decide)).symm

theorem fieldOp_of_covers (op : Nibble) (h : OpcodeRow.covers ⟨wordNNN op 0, 0xF000⟩ w = true) : fieldOp w = op :=
  (extract_of_covers h 12 4 (by decide)).trans (fieldOp_wordNNN op 0)

theorem wordNNN_of_covers (op : Nibble) (h : OpcodeRow.covers ⟨wordNNN op 0, 0xF000⟩ w = true) :
    wordNNN op (fieldNNN w) = w :=
  wordNNN_fields op w (fieldOp_of_covers op h)

theorem wordXKK_of_covers (op : Nibble) (h : OpcodeRow.covers ⟨wordNNN op 0, 0xF000⟩ w = true) :
    wordXKK op (fieldX w) (fieldKK w) = w :=
  wordXKK_fields op w (fieldOp_of_covers op h)

theorem wordXYN_of_covers (op : Nibble) (h : OpcodeRow.covers ⟨wordNNN op 0, 0xF000⟩ w = true) :
    wordXYN op (fieldX w) (fieldY w) (fieldN w) = w :=
  wordXYN_fields op w (fieldOp_of_covers op h)

theorem wordXYN_of_covers_n (op n : Nibble) (h : OpcodeRow.covers ⟨wordXYN op 0 0 n, 0xF00F⟩ w = true) :
    wordXYN op (fieldX w) (fieldY w) n = w :=
  wordXYN_of_fields ((extract_of_covers h 12 4 (by decide)).trans (fieldOp_wordXYN op 0 0 n))
    ((extract_of_covers h 0 4 (by decide)).trans (fieldN_wordXYN op 0 0 n))

theorem wordXKK_of_covers_kk (op : Nibble) (kk : Byte) (h : OpcodeRow.covers ⟨wordXKK op 0 kk, 0xF0FF⟩ w = true) :
    wordXKK op (fieldX w) kk = w :=
  wordXKK_of_fields ((extract_of_covers h 12 4 (by decide)).trans (fieldOp_wordXKK op 0 kk))
    ((extract_of_covers h 0 8 (by decide)).trans (fieldKK_wordXKK op 0 kk))

end

/-- A word of a row is the encoding of an instruction with that row: the row's instruction with the operands of the word. -/
theorem exists_encode_of_covers {j : Instr} {w : Word} (h : j.row.covers w = true) :
    ∃ k, encode k = w ∧ k.row = j.row := by
  cases j
  case cls => exact ⟨.cls, eq_of_covers h, rfl⟩
  case ret => exact ⟨.ret, eq_of_covers h, rfl⟩
  case sys => exact ⟨.sys _, wordNNN_of_covers 0x0 h, rfl⟩
  case jp => exact ⟨.jp _, wordNNN_of_covers 0x1 h, rfl⟩
  case call => exact ⟨.call _, wordNNN_of_covers 0x2 h, rfl⟩
  case seImm => exact ⟨.seImm _ _, wordXKK_of_covers 0x3 h, rfl⟩
  case sneImm => exact ⟨.sneImm _ _, wordXKK_of_covers 0x4 h, rfl⟩
  case seReg => exact ⟨.seReg _ _, wordXYN_of_covers_n 0x5 0x0 h, rfl⟩
  case ldImm => exact ⟨.ldImm _ _, wordXKK_of_covers 0x6 h, rfl⟩
  case addImm => exact ⟨.addImm _ _, wordXKK_of_covers 0x7 h, rfl⟩
  case ldReg => exact ⟨.ldReg _ _, wordXYN_of_covers_n 0x8 0x0 h, rfl⟩
  case orReg => exact ⟨.orReg _ _, wordXYN_of_covers_n 0x8 0x1 h, rfl⟩
  case andReg => exact ⟨.andReg _ _, wordXYN_of_covers_n 0x8 0x2 h, rfl⟩
  case xorReg => exact ⟨.xorReg _ _, wordXYN_of_covers_n 0x8 0x3 h, rfl⟩
  case addReg => exact ⟨.addReg _ _, wordXYN_of_covers_n 0x8 0x4 h, rfl⟩
  case subReg => exact ⟨.subReg _ _, wordXYN_of_covers_n 0x8 0x5 h, rfl⟩
  case shrReg => exact ⟨.shrReg _ _, wordXYN_of_covers_n 0x8 0x6 h, rfl⟩
  case subnReg => exact ⟨.subnReg _ _, wordXYN_of_covers_n 0x8 0x7 h, rfl⟩
  case shlReg => exact ⟨.shlReg _ _, wordXYN_of_covers_n 0x8 0xE h, rfl⟩
  case sneReg => exact ⟨.sneReg _ _, wordXYN_of_covers_n 0x9 0x0 h, rfl⟩
  case ldI => exact ⟨.ldI _, wordNNN_of_covers 0xA h, rfl⟩
  case jpV0 => exact ⟨.jpV0 _, wordNNN_of_covers 0xB h, rfl⟩
  case rnd => exact ⟨.rnd _ _, wordXKK_of_covers 0xC h, rfl⟩
  case drw => exact ⟨.drw _ _ _, wordXYN_of_covers 0xD h, rfl⟩
  case skp => exact ⟨.skp _, wordXKK_of_covers_kk 0xE 0x9E h, rfl⟩
  case sknp => exact ⟨.sknp _, wordXKK_of_covers_kk 0xE 0xA1 h, rfl⟩
  case ldVxDT => exact ⟨.ldVxDT _, wordXKK_of_covers_kk 0xF 0x07 h, rfl⟩
  case ldVxK => exact ⟨.ldVxK _, wordXKK_of_covers_kk 0xF 0x0A h, rfl⟩
  case ldDTVx => exact ⟨.ldDTVx _, wordXKK_of_covers_kk 0xF 0x15 h, rfl⟩
  case ldSTVx => exact ⟨.ldSTVx _, wordXKK_of_covers_kk 0xF 0x18 h, rfl⟩
  case addI => exact ⟨.addI _, wordXKK_of_covers_kk 0xF 0x1E h, rfl⟩
  case ldF => exact ⟨.ldF _, wordXKK_of_covers_kk 0xF 0x29 h, rfl⟩
  case ldB => exact ⟨.ldB _, wordXKK_of_covers_kk 0xF 0x33 h, rfl⟩
  case storeRegs => exact ⟨.storeRegs _, wordXKK_of_covers_kk 0xF 0x55 h, rfl⟩
  case loadRegs => exact ⟨.loadRegs _, wordXKK_of_covers_kk 0xF 0x65 h, rfl⟩

/-- An ill-formed term has the row of SYS and the word of CLS or RET. -/
theorem cls_or_ret_of_not_wellFormed {k : Instr} (h : k.wellFormed ≠ true) :
    k.row = rowSys ∧ (encode k = encode .cls ∨ encode k = encode .ret) := by
  cases k
  case sys nnn =>
    rw [Ne, sys_wellFormed_iff] at h
    exact ⟨rfl, by_contra fun hne => h (not_or.mp hne)⟩
  all_goals exact absurd rfl h

theorem encode_injective {i k : Instr} (hi : i.wellFormed = true) (hk : k.wellFormed = true) (h : encode i = encode k) :
    i = k :=
  Except.ok.inj ((decodeWord_encode hi).symm.trans (h ▸ decodeWord_encode hk))

/-- Settles O5: the word is the encoding of i, so it is in the row of i; where another row holds it, it
is the encoding of a second term, which can only be an ill-formed one. -/
theorem decodedWordFitsOneRow : Obligations.DecodedWordFitsOneRow := by
  intro w i h
  obtain ⟨rfl, hi⟩ := encode_of_decodeWord h
  refine ⟨row_covers_encode i, fun j hj => ?_⟩
  obtain ⟨k, henc, hrow⟩ := exists_encode_of_covers hj
  rw [← hrow]
  by_cases hk : k.wellFormed = true
  · exact .inl (congrArg Instr.row (encode_injective hk hi henc))
  · obtain ⟨hsys, hword⟩ := cls_or_ret_of_not_wellFormed hk
    rw [henc] at hword
    exact .inr ⟨hsys, hword.imp (fun hcls => congrArg Instr.row (encode_injective (k := .cls) hi rfl hcls))
      (fun hret => congrArg Instr.row (encode_injective (k := .ret) hi rfl hret))⟩

end Sys2Proof
end

section
/-! SUPPORT. What a step of an unfaulted core answers (30_encoding.md R71): its next state and its result value, where the
fetch fails, where the word is Unknown, and where an instruction executes; and that from a legal state it answers both. -/

namespace Sys2Proof.Machine

/-! ## The step and its result, case by case (30_encoding R71) -/

theorem fetch_error_of_le {s : State} (h : 0xFFF ≤ s.pc.toNat) :
    fetch s = .error (if s.pc.toNat = 0xFFF then 0x1000 else s.pc.toNat) := by
  unfold fetch
  by_cases hpc : s.pc.toNat = 0xFFF
  · simp [readable, hpc]
  · have hout : ¬ s.pc.toNat < 0x1000 := by omega
    simp [readable, hpc, hout]

section
variable {s : State} (hfault : s.fault = none)
include hfault

theorem step_of_fetch_error {a : Nat} (hfetch : fetch s = .error a) : step s = raiseFetch a s := by
  simp [step, hfault, hfetch]

theorem stepResult_of_fetch_error {a : Nat} (hfetch : fetch s = .error a) :
    stepResult s = some (.faulted { kind := .addressingFault, pc := s.pc, word := none, addr := some a }) := by
  simp [stepResult, hfault, hfetch]

variable {w : Word} (hfetch : fetch s = .ok w)
include hfetch

theorem step_of_decode_error {e : DecodeError} (hdecode : decodeWord w = .error e) : step s = .next s.advancePc := by
  simp [step, hfault, hfetch, hdecode, skipUnknown]

theorem stepResult_of_decode_error {e : DecodeError} (hdecode : decodeWord w = .error e) :
    stepResult s = some (.unknown w) := by
  simp [stepResult, hfault, hfetch, hdecode]

theorem step_of_decode {i : Instr} (hdecode : decodeWord w = .ok i) : step s = exec i s.advancePc := by
  simp [step, hfault, hfetch, hdecode]

theorem stepResult_of_decode {i : Instr} (hdecode : decodeWord w = .ok i) : stepResult s = execResult i s.advancePc := by
  simp [stepResult, hfault, hfetch, hdecode]

end

/-- Settles O6: both bytes are in memory, so the fetch gives their word. -/
theorem stepRunsDecodedInstruction : Obligations.StepRunsDecodedInstruction :=
  fun _ _ hfault hpc hdecode => step_of_decode hfault (fetch_of_lt (Nat.lt_succ_of_le hpc)) hdecode

/-- Settles O8: the fetch fails at the first of its two addresses that is above 0xFFF. -/
theorem fetchOutsideMemoryFaults : Obligations.FetchOutsideMemoryFaults :=
  fun _ hfault hpc => step_of_fetch_error hfault (fetch_error_of_le hpc)

/-! ## An instruction answers a next state and a result (60_exceptions R172) -/

theorem storeThroughI_ne_refused (i : Instr) (bytes : List Byte) (s : State) (r : Refusal) :
    storeThroughI i bytes s ≠ .refused r := by
  rcases storeThroughI_cases i bytes s with ⟨_, -, h⟩ | ⟨-, h⟩ <;> rw [h] <;> exact nofun

/-- Only CALL and RET can be refused, and only above a full stack (10_state R26). -/
theorem exec_ne_refused {i : Instr} {s : State} (hsp : s.sp.toNat ≤ Config.stackDepth) (r : Refusal) :
    exec i s ≠ .refused r := by
  have hdepth : s.sp.toNat ≤ 16 := hsp
  cases i
  case ret =>
    simp only [exec, execRet]
    split
    · exact nofun
    · rw [dif_pos (show s.sp.toNat - 1 < 16 by omega)]
      exact nofun
  case call =>
    simp only [exec, execCall]
    split
    · exact nofun
    · next hfull =>
      rw [dif_pos (show s.sp.toNat < 16 by bv_omega)]
      exact nofun
  case ldB | storeRegs => exact storeThroughI_ne_refused _ _ _ _
  case drw | loadRegs | ldVxK =>
    simp only [exec, execDrw, execLoadRegs, execLdVxK]
    split <;> exact nofun
  all_goals exact nofun

theorem exec_answers_next {i : Instr} {s : State} (hsp : s.sp.toNat ≤ Config.stackDepth) : ∃ t, exec i s = .next t := by
  cases h : exec i s with
  | next t => exact ⟨t, rfl⟩
  | fault r => exact absurd h (exec_ne_fault i s r)
  | refused r => exact absurd h (exec_ne_refused hsp r)

theorem exec_next_keeps_fault_or_raises {i : Instr} {s t : State} (h : exec i s = .next t) :
    t.fault = s.fault ∨ ∃ kind addr, exec i s = raise i kind addr s := by
  rcases exec_next_fault_cases h with hkeep | ⟨-, -, hraise⟩ | ⟨-, -, hraise⟩ | ⟨-, _, hraise⟩
  · exact .inl hkeep
  all_goals exact .inr ⟨_, _, hraise⟩

theorem execResult_of_no_fault {i : Instr} {s t : State} (h : exec i s = .next t) (hfault : t.fault = none) :
    execResult i s = some (if waits i s then .waiting else .executed) := by
  simp [execResult, h, hfault]

theorem execResult_of_fault {i : Instr} {s t : State} {r : FaultRecord} (h : exec i s = .next t)
    (hfault : t.fault = some r) : execResult i s = some (.faulted r) := by
  simp [execResult, h, hfault]

/-- Settles O13: a fetch fault, an Unknown word, or an instruction, which keeps FAULT none or is a raise. -/
theorem unfaultedStepAnswersNextState : Obligations.UnfaultedStepAnswersNextState := by
  rintro s ⟨-, hsp⟩ hfault
  cases hfetch : fetch s with
  | error a =>
    exact ⟨_, _, step_of_fetch_error hfault hfetch, stepResult_of_fetch_error hfault hfetch, .inr ⟨_, rfl, rfl⟩⟩
  | ok w =>
    cases hdecode : decodeWord w with
    | error e =>
      exact ⟨_, _, step_of_decode_error hfault hfetch hdecode, stepResult_of_decode_error hfault hfetch hdecode,
        .inl ⟨hfault, nofun⟩⟩
    | ok i =>
      rw [step_of_decode hfault hfetch hdecode, stepResult_of_decode hfault hfetch hdecode]
      obtain ⟨t, hnext⟩ := exec_answers_next (i := i) (s := s.advancePc) hsp
      rcases exec_next_keeps_fault_or_raises hnext with hkeep | ⟨kind, addr, hraise⟩
      · have ht : t.fault = none := hkeep.trans hfault
        refine ⟨t, _, hnext, execResult_of_no_fault hnext ht, .inl ⟨ht, fun r => ?_⟩⟩
        split <;> exact nofun
      · rw [raise_advancePc] at hraise
        exact ⟨_, _, hraise, execResult_of_fault hraise rfl, .inr ⟨_, rfl, rfl⟩⟩

end Sys2Proof.Machine
end

section
/-! SUPPORT. Control flow (40_flow.md): what SYS, JP, JP V0, CALL and RET do, each by the cases of its rule, and that a RET on
the stack a CALL left undoes it. -/

namespace Sys2Proof.Machine

/-! ## Where a jump goes (40_flow R102, R104) -/

theorem zextAddr_eq_ofNat (nnn : Addr12) : zextAddr nnn = BitVec.ofNat 16 nnn.toNat :=
  (BitVec.ofNat_toNat 16 nnn).symm

theorem zextAddr_toNat (nnn : Addr12) : (zextAddr nnn).toNat = nnn.toNat :=
  BitVec.toNat_setWidth_of_le (by decide)

theorem zextByte_toNat (b : Byte) : (zextByte b).toNat = b.toNat :=
  BitVec.toNat_setWidth_of_le (by decide)

/-- The largest sum, 0xFFF + 0xFF, is below 2^16, so the addition of JP V0 never wraps (R104). -/
theorem zextAddr_add_zextByte_toNat (nnn : Addr12) (b : Byte) :
    (zextAddr nnn + zextByte b).toNat = nnn.toNat + b.toNat := by
  rw [BitVec.toNat_add_of_lt, zextAddr_toNat, zextByte_toNat]
  rw [zextAddr_toNat, zextByte_toNat]
  omega

theorem exec_jp (nnn : Addr12) (s : State) : exec (.jp nnn) s = .next (s.setPc (zextAddr nnn)) := rfl

theorem exec_jpV0 (nnn : Addr12) (s : State) :
    exec (.jpV0 nnn) s = .next (s.setPc (zextAddr nnn + zextByte (s.getV 0x0))) := rfl

/-- Settles O24: the meaning of SYS is the state it executes from. -/
theorem sysIsNoOp : Obligations.SysIsNoOp :=
  fun _ _ => rfl

/-- Settles O26: the sum that JP V0 sets PC to is exact. -/
theorem jumpOffsetAddsV0 : Obligations.JumpOffsetAddsV0 :=
  fun nnn s => ⟨_, exec_jpV0 nnn s, zextAddr_add_zextByte_toNat nnn (s.getV 0x0)⟩

theorem step_jp {nnn : Addr12} {s : State} (hfault : s.fault = none) (hfetch : fetch s = .ok (encode (.jp nnn))) :
    step s = .next (s.setPc (zextAddr nnn)) :=
  step_of_decode hfault hfetch (decodeWord_encode rfl)

/-- A jump to its own address (R102). -/
theorem step_jp_self {nnn : Addr12} {s : State} (hfault : s.fault = none) (hfetch : fetch s = .ok (encode (.jp nnn)))
    (hpc : s.pc.toNat = nnn.toNat) : step s = .next s := by
  have hself : zextAddr nnn = s.pc := BitVec.eq_of_toNat_eq ((zextAddr_toNat nnn).trans hpc.symm)
  rw [step_jp hfault hfetch, hself]
  rfl

theorem fetch_setPc_zextAddr {nnn : Addr12} (s : State) (hnnn : nnn ≠ 0xFFF) :
    fetch (s.setPc (zextAddr nnn)) =
      .ok (wordOfBytes (Memory.read s.mem nnn.toNat) (Memory.read s.mem (nnn.toNat + 1))) := by
  have hpc : (s.setPc (zextAddr nnn)).pc.toNat = nnn.toNat := zextAddr_toNat nnn
  have hlast : nnn.toNat + 1 < 0x1000 := by bv_omega
  rw [fetch_of_lt (by rwa [hpc]), hpc, State.setPc_mem]

/-- Settles O25: the jump itself, the jump to its own address, and the fetch that follows it. -/
theorem jumpSetsPc : Obligations.JumpSetsPc := by
  intro nnn s
  rw [← zextAddr_eq_ofNat]
  refine ⟨exec_jp nnn s, step_jp_self, fun hfault hnnn => ?_, fetch_setPc_zextAddr s⟩
  subst hnnn
  exact step_of_fetch_error (s := s.setPc 0xFFF) hfault (fetch_error_of_le (Nat.le_refl 0xFFF))

/-! ## CALL and RET by the depth of the stack (40_flow R101, R103, 10_state R26) -/

theorem raise_eq_faultEntry (i : Instr) (kind : FaultKind) (addr : Option Nat) (s : State) :
    raise i kind addr s = .next (faultEntry i kind addr s) := rfl

section
variable {s : State}

theorem exec_call_of_lt (nnn : Addr12) (hroom : s.sp.toNat < 16) :
    exec (.call nnn) s = .next ((s.push s.pc hroom).setPc (zextAddr nnn)) := by
  have hne : s.sp ≠ 16 := by bv_omega
  rw [exec, execCall, if_neg hne, dif_pos hroom]

theorem exec_call_of_full (nnn : Addr12) (hfull : s.sp = 16) :
    exec (.call nnn) s = .next (faultEntry (.call nnn) .stackOverflow none s) := by
  rw [exec, execCall, if_pos hfull, raise_eq_faultEntry]

theorem exec_call_of_gt (nnn : Addr12) (hsp : 16 < s.sp.toNat) :
    exec (.call nnn) s = .refused .stackPointerOutOfRange := by
  have hne : s.sp ≠ 16 := by bv_omega
  rw [exec, execCall, if_neg hne, dif_neg (Nat.lt_asymm hsp)]

theorem exec_ret_of_pos (hpos : 0 < s.sp.toNat) (htop : s.sp.toNat - 1 < 16) :
    exec .ret s = .next (s.pop.setPc s.stack[s.sp.toNat - 1]) := by
  have hne : s.sp ≠ 0 := by bv_omega
  rw [exec, execRet, if_neg hne, dif_pos htop]

theorem exec_ret_of_empty (hempty : s.sp = 0) : exec .ret s = .next (faultEntry .ret .stackUnderflow none s) := by
  rw [exec, execRet, if_pos hempty, raise_eq_faultEntry]

theorem exec_ret_of_gt (hsp : 16 < s.sp.toNat) : exec .ret s = .refused .stackPointerOutOfRange := by
  have hne : s.sp ≠ 0 := by bv_omega
  have htop : ¬ s.sp.toNat - 1 < 16 := Nat.not_lt.mpr (Nat.le_sub_one_of_lt hsp)
  rw [exec, execRet, if_neg hne, dif_neg htop]

end

/-- Settles O27: room for one more entry, a full stack, and an SP no run reaches. -/
theorem callPushesOrOverflows : Obligations.CallPushesOrOverflows := by
  intro nnn s
  rw [← zextAddr_eq_ofNat]
  exact ⟨exec_call_of_lt nnn, exec_call_of_full nnn, exec_call_of_gt nnn⟩

/-- Settles O28: a top slot to pop, an empty stack, and an SP no run reaches. -/
theorem returnPopsOrUnderflows : Obligations.ReturnPopsOrUnderflows :=
  fun _ => ⟨exec_ret_of_pos, exec_ret_of_empty, exec_ret_of_gt⟩

/-! ## RET undoes CALL (40_flow R101, R103, 10_state R26, R27) -/

/-- A RET on a stack with the entry a pushed onto that of s returns to a with the depth of s. The push changes no slot but its
own, and the pop changes none. -/
theorem exec_ret_of_push {s u : State} {a : Word} (hroom : s.sp.toNat < 16)
    (hsp : u.sp = (s.push a hroom).sp) (hstack : u.stack = (s.push a hroom).stack) :
    ∃ r, exec .ret u = .next r ∧ r.pc = a ∧ r.sp = s.sp ∧
      ∀ (k : Nat) (_ : k < s.sp.toNat) (hk : k < 16), r.stack[k] = s.stack[k] := by
  rw [State.push_sp] at hsp
  rw [State.push_stack] at hstack
  have hdepth : u.sp.toNat = s.sp.toNat + 1 := by
    rw [hsp]
    bv_omega
  have htop : u.sp.toNat - 1 = s.sp.toNat := by omega
  refine ⟨_, exec_ret_of_pos (by omega) (by rwa [htop]), ?_, ?_, fun k hlow hk => ?_⟩
  · simp [htop, hstack]
  · simp [hsp]
  · simp only [State.setPc_stack, State.pop_stack, hstack]
    exact Vector.getElem_set_ne hroom hk (Nat.ne_of_gt hlow)

/-- Settles O29: the stack a CALL left is that of s with the advanced PC pushed. -/
theorem returnUndoesCall : Obligations.ReturnUndoesCall := by
  intro nnn s t u hroom hcall hsp hstack
  rw [exec_call_of_lt nnn hroom] at hcall
  cases hcall
  exact exec_ret_of_push hroom hsp hstack

end Sys2Proof.Machine
end

section
/-! SUPPORT. Skips (41_skip.md): where PC is after a skip, by its condition, and the fetch that follows a skip out of memory. -/

namespace Sys2Proof.Machine

/-- A skip moves PC by 2 exactly where its condition holds, and touches no other element. -/
theorem State.skipIf_eq_of_iff {c : Bool} {p : Prop} [Decidable p] (hc : c = true ↔ p) (s : State) :
    s.skipIf c = { s with pc := if p then s.pc + 2 else s.pc } := by
  by_cases hp : p
  · rw [hc.mpr hp, if_pos hp]
    rfl
  · rw [Bool.eq_false_iff.mpr (mt hc.mp hp), if_neg hp]
    rfl

section
variable (x y : Nibble) (kk : Byte) (s : State)

theorem exec_seImm : exec (.seImm x kk) s = .next (s.skipIf (s.getV x == kk)) := rfl

theorem exec_sneImm : exec (.sneImm x kk) s = .next (s.skipIf (s.getV x != kk)) := rfl

theorem exec_seReg : exec (.seReg x y) s = .next (s.skipIf (s.getV x == s.getV y)) := rfl

theorem exec_sneReg : exec (.sneReg x y) s = .next (s.skipIf (s.getV x != s.getV y)) := rfl

end

/-- Settles O30: each of the four is a skip on its comparison; the fetch after a skip to 0xFFF or above is out of memory. -/
theorem skipsCompare : Obligations.SkipsCompare := by
  intro x y kk s
  rw [exec_seImm, exec_sneImm, exec_seReg, exec_sneReg]
  exact ⟨congrArg _ (s.skipIf_eq_of_iff beq_iff_eq), congrArg _ (s.skipIf_eq_of_iff bne_iff_ne),
    congrArg _ (s.skipIf_eq_of_iff beq_iff_eq), congrArg _ (s.skipIf_eq_of_iff bne_iff_ne),
    fun hpc => ⟨_, fetch_error_of_le (s := s.setPc (s.pc + 2)) hpc⟩⟩

end Sys2Proof.Machine
end

section
/-! SUPPORT. Loads, arithmetic, logic, shifts and random (42_alu.md): what a write of one register, and a write of a result and
then its flag, leave in the registers, and the flags as the comparisons and bits the rules name. -/

namespace Sys2Proof.Machine

/-! ## One register, and a result and then its flag (42_alu R120, D9) -/

/-- A write of Vx writes no other register and no other element. -/
theorem State.setV_frame (s : State) (x : Nibble) (b : Byte) :
    (∀ j, j ≠ x → (s.setV x b).getV j = s.getV j) ∧ { s.setV x b with v := s.v } = s :=
  ⟨fun j hj => s.getV_setV_ne x j b hj.symm, rfl⟩

theorem State.getV_setVThenFlag_flag (s : State) (x : Nibble) (b : Byte) (f : Bool) :
    (s.setVThenFlag x b f).getV 0xF = flagByte f := by
  rw [State.getV_setVThenFlag, if_pos rfl]

theorem State.getV_setVThenFlag_same (s : State) {x : Nibble} (b : Byte) (f : Bool) (hx : x ≠ 0xF) :
    (s.setVThenFlag x b f).getV x = b := by
  rw [State.getV_setVThenFlag, if_neg hx, if_pos rfl]

/-- A write of Vx and then VF writes no other register and no other element. -/
theorem State.setVThenFlag_frame (s : State) (x : Nibble) (b : Byte) (f : Bool) :
    (∀ j, j ≠ x → j ≠ 0xF → (s.setVThenFlag x b f).getV j = s.getV j) ∧ { s.setVThenFlag x b f with v := s.v } = s := by
  refine ⟨fun j hx hF => ?_, rfl⟩
  rw [State.getV_setVThenFlag, if_neg hF, if_neg hx.symm]

/-! ## Flags and differences as the rules write them (42_alu R127, R128, D10) -/

theorem flagByte_carry (a b : Byte) : flagByte (carry a b) = if 0xFF < a.toNat + b.toNat then 1 else 0 := by
  simp only [flagByte, carry, decide_eq_true_eq]

theorem flagByte_noBorrow (a b : Byte) : flagByte (noBorrow a b) = if b.toNat ≤ a.toNat then 1 else 0 := by
  simp only [flagByte, noBorrow, decide_eq_true_eq]

/-- The difference modulo 256 is that of the integers, also where it borrows. -/
theorem subTrunc_toInt (a b : Byte) : ((subTrunc a b).toNat : Int) = (a.toNat - b.toNat : Int) % 256 := by
  have hb : b.toNat < 256 := b.isLt
  rw [subTrunc_toNat]
  omega

/-- A difference and its no-borrow flag, whichever register is the minuend. -/
theorem State.setVThenFlag_difference (s : State) (x : Nibble) (a b : Byte) :
    let t := s.setVThenFlag x (subTrunc a b) (noBorrow a b)
    t.getV 0xF = (if b.toNat ≤ a.toNat then 1 else 0) ∧
      (x ≠ 0xF → ((t.getV x).toNat : Int) = (a.toNat - b.toNat : Int) % 256) ∧
      (∀ j, j ≠ x → j ≠ 0xF → t.getV j = s.getV j) ∧ { t with v := s.v } = s := by
  refine ⟨?flag, fun hx => ?difference, s.setVThenFlag_frame x _ _⟩
  case flag => rw [s.getV_setVThenFlag_flag, flagByte_noBorrow]
  case difference => rw [s.getV_setVThenFlag_same _ _ hx, subTrunc_toInt]

/-! ## The meanings (42_alu R121 to R132) -/

section
variable (x y : Nibble) (kk : Byte) (s : State)

theorem exec_ldImm : exec (.ldImm x kk) s = .next (s.setV x kk) := rfl

theorem exec_ldReg : exec (.ldReg x y) s = .next (s.setV x (s.getV y)) := rfl

theorem exec_addImm : exec (.addImm x kk) s = .next (s.setV x (addTrunc (s.getV x) kk)) := rfl

theorem exec_orReg : exec (.orReg x y) s = .next (s.setV x (s.getV x ||| s.getV y)) := rfl

theorem exec_andReg : exec (.andReg x y) s = .next (s.setV x (s.getV x &&& s.getV y)) := rfl

theorem exec_xorReg : exec (.xorReg x y) s = .next (s.setV x (s.getV x ^^^ s.getV y)) := rfl

theorem exec_rnd : exec (.rnd x kk) s = .next (s.countDraw.setV x (s.randomByte &&& kk)) := rfl

theorem exec_addReg : exec (.addReg x y) s =
    .next (s.setVThenFlag x (addTrunc (s.getV x) (s.getV y)) (carry (s.getV x) (s.getV y))) := rfl

theorem exec_subReg : exec (.subReg x y) s =
    .next (s.setVThenFlag x (subTrunc (s.getV x) (s.getV y)) (noBorrow (s.getV x) (s.getV y))) := rfl

theorem exec_subnReg : exec (.subnReg x y) s =
    .next (s.setVThenFlag x (subTrunc (s.getV y) (s.getV x)) (noBorrow (s.getV y) (s.getV x))) := rfl

theorem exec_shrReg : exec (.shrReg x y) s =
    .next (s.setVThenFlag x (shrOne (s.getV x)) (shrOut (s.getV x))) := rfl

theorem exec_shlReg : exec (.shlReg x y) s =
    .next (s.setVThenFlag x (shlOne (s.getV x)) (shlOut (s.getV x))) := rfl

end

/-! ## The statements -/

/-- Settles O34: the sum first, then the carry of the operands as they were. -/
theorem addSetsCarry : Obligations.AddSetsCarry := by
  intro x y s
  refine ⟨_, exec_addReg x y s, ?flag, fun hx => ?sum, s.setVThenFlag_frame x _ _⟩
  case flag => rw [s.getV_setVThenFlag_flag, flagByte_carry]
  case sum => rw [s.getV_setVThenFlag_same _ _ hx, addTrunc_toNat]

/-- Settles O35: SUB and SUBN are the same difference with the operands exchanged. -/
theorem subtractionsSetNoBorrow : Obligations.SubtractionsSetNoBorrow :=
  fun x y s => ⟨⟨_, exec_subReg x y s, s.setVThenFlag_difference x _ _⟩,
    ⟨_, exec_subnReg x y s, s.setVThenFlag_difference x _ _⟩⟩

/-- Settles O36: neither meaning reads Vy. -/
theorem shiftsSetTheBitShiftedOut : Obligations.ShiftsSetTheBitShiftedOut := by
  intro x y s
  constructor
  · refine ⟨_, exec_shrReg x y s, ?flag, fun hx => ?half, s.setVThenFlag_frame x _ _⟩
    case flag => rw [s.getV_setVThenFlag_flag, flagByte_shrOut]
    case half => rw [s.getV_setVThenFlag_same _ _ hx, shrOne_toNat]
  · refine ⟨_, exec_shlReg x y s, ?flag, fun hx => ?double, s.setVThenFlag_frame x _ _⟩
    case flag => rw [s.getV_setVThenFlag_flag, flagByte_shlOut]
    case double => rw [s.getV_setVThenFlag_same _ _ hx, shlOne_toNat]

/-- Settles O32: each is a write of Vx. -/
theorem loadsMoveTheValue : Obligations.LoadsMoveTheValue :=
  fun x y kk s => ⟨⟨_, exec_ldImm x kk s, s.getV_setV_same x _, s.setV_frame x _⟩,
    ⟨_, exec_ldReg x y s, s.getV_setV_same x _, s.setV_frame x _⟩⟩

/-- Settles O33: each is a write of Vx, the sum reduced modulo 256. -/
theorem addImmediateAndLogicWriteNoFlag : Obligations.AddImmediateAndLogicWriteNoFlag := by
  intro x y kk s
  refine ⟨⟨_, exec_addImm x kk s, ?sum, s.setV_frame x _⟩,
    ⟨_, exec_orReg x y s, s.getV_setV_same x _, s.setV_frame x _⟩,
    ⟨_, exec_andReg x y s, s.getV_setV_same x _, s.setV_frame x _⟩,
    ⟨_, exec_xorReg x y s, s.getV_setV_same x _, s.setV_frame x _⟩⟩
  case sum => rw [s.getV_setV_same, addTrunc_toNat]

/-- Settles O37: counting the draw changes no register, so Vx is the only one written. -/
theorem randomIsOneMaskedDraw : Obligations.RandomIsOneMaskedDraw :=
  fun x kk s => ⟨_, exec_rnd x kk s, s.countDraw.getV_setV_same x _, rfl,
    fun j hj => s.countDraw.getV_setV_ne x j _ hj.symm, rfl⟩

end Sys2Proof.Machine
end

section
/-! SUPPORT. The index register and memory transfer (43_index_memory.md): the values I is set to, the glyph under I, and the
stores and loads through I, each by the three or two ranges of I its rule tells apart. -/

namespace Sys2Proof.Machine

/-! ## Loads of I (43_index_memory R140 to R142) -/

section
variable (x : Nibble) (s : State)

theorem exec_ldI (nnn : Addr12) : exec (.ldI nnn) s = .next (s.setI (zextAddr nnn)) := rfl

theorem exec_addI : exec (.addI x) s = .next (s.setI (s.i + zextByte (s.getV x))) := rfl

theorem exec_ldF : exec (.ldF x) s = .next (s.setI (glyphAddr (s.getV x))) := rfl

end

/-- The last glyph starts at 0x09B, so the address is exact. -/
theorem glyphAddr_toNat (b : Byte) : (glyphAddr b).toNat = fontBase + fontGlyphBytes * (b.toNat % 16) := by
  rw [glyphAddr, BitVec.toNat_ofNat, Nat.mod_eq_of_lt]
  simp only [fontBase, fontGlyphBytes]
  omega

/-- From FONT_BASE up the power-on memory holds the font (20_memory R59). -/
theorem Memory.unlisted_fontBase_add (n : Nat) : Memory.unlisted (fontBase + n) = font.getD n 0 := by
  rw [Memory.unlisted, if_pos (Nat.le_add_right _ n), Nat.add_sub_cancel_left]

/-- Settles O38: the address is extended with zeros. -/
theorem loadIndexSetsI : Obligations.LoadIndexSetsI :=
  fun nnn s => ⟨_, exec_ldI s nnn, zextAddr_toNat nnn⟩

/-- Settles O39: the sum of two words is reduced modulo 2^16, and Vx is extended with zeros. -/
theorem addIndexWraps : Obligations.AddIndexWraps := by
  intro x s
  refine ⟨_, exec_addI x s, ?_⟩
  rw [BitVec.toNat_add, zextByte_toNat]

/-- Settles O40: the glyph lies in the reserved region, which after a reset reads as at power-on. -/
theorem fontIndexPointsAtGlyph : Obligations.FontIndexPointsAtGlyph := by
  intro x s
  refine ⟨_, exec_ldF x s, glyphAddr_toNat _, fun k hk => ?_⟩
  have hlow : fontBase + (5 * ((s.getV x).toNat % 16) + k) < Config.progStart := by
    simp only [fontBase, Config.progStart]
    omega
  rw [glyphAddr_toNat, fontGlyphBytes, Nat.add_assoc, resetMachine, Memory.read_resetReserved_low _ _ hlow,
    Memory.unlisted_fontBase_add]

/-! ## Stores through I (43_index_memory R143, R144, 20_memory R55 to R57) -/

section
variable {s : State} (i : Instr) (bytes : List Byte)

theorem storeThroughI_of_firstFailing {bad : Nat} (hbad : firstFailing writable (indexAddr s) bytes.length = some bad) :
    storeThroughI i bytes s = .next (faultEntry i .addressingFault (some bad) s) := by
  simp only [storeThroughI, memWrite, hbad, raise_eq_faultEntry]

/-- A store that starts in the reserved region faults at I. -/
theorem storeThroughI_reserved (hne : bytes.length ≠ 0) (hlow : indexAddr s < Config.progStart) :
    storeThroughI i bytes s = .next (faultEntry i .addressingFault (some (indexAddr s)) s) :=
  storeThroughI_of_firstFailing i bytes (firstFailing_writable_low hne hlow)

/-- A store from the program region up that runs out of memory faults at I or at 0x1000, whichever is higher. -/
theorem storeThroughI_pastEnd (hne : bytes.length ≠ 0) (hlo : Config.progStart ≤ indexAddr s)
    (hhi : Config.memSize < indexAddr s + bytes.length) :
    storeThroughI i bytes s = .next (faultEntry i .addressingFault (some (max (indexAddr s) Config.memSize)) s) :=
  storeThroughI_of_firstFailing i bytes (firstFailing_writable_high hne hlo hhi)

end

section
variable (x : Nibble) (s : State)

theorem exec_ldB : exec (.ldB x) s = storeThroughI (.ldB x) (bcdDigits (s.getV x)) s := rfl

theorem exec_storeRegs : exec (.storeRegs x) s = storeThroughI (.storeRegs x) (regsUpTo x s) s := rfl

end

/-- The three digits as numbers, the hundreds first; each is below 256, so its byte holds it as it is. -/
theorem bcdDigits_toNat (b : Byte) :
    (bcdDigits b)[0].toNat = b.toNat / 100 ∧ (bcdDigits b)[1].toNat = b.toNat / 10 % 10 ∧
      (bcdDigits b)[2].toNat = b.toNat % 10 := by
  have hb : b.toNat < 256 := b.isLt
  simp only [bcdDigits, List.getElem_cons_zero, List.getElem_cons_succ, BitVec.toNat_ofNat]
  omega

theorem read_writeBytes_bcdDigits {m : Memory} (hwf : Memory.wf m = true) {a : Nat} (hhi : a + 3 ≤ Config.memSize)
    (b : Byte) :
    (Memory.read (Memory.writeBytes m a (bcdDigits b)) a).toNat = b.toNat / 100 ∧
      (Memory.read (Memory.writeBytes m a (bcdDigits b)) (a + 1)).toNat = b.toNat / 10 % 10 ∧
      (Memory.read (Memory.writeBytes m a (bcdDigits b)) (a + 2)).toNat = b.toNat % 10 := by
  have hread := Memory.read_writeBytes_inside hwf a (bcdDigits b) hhi
  have h0 := hread 0 (by simp)
  rw [Nat.add_zero] at h0
  rw [h0, hread 1 (by simp), hread 2 (by simp)]
  exact bcdDigits_toNat b

/-- Settles O41: a store of the three digits. -/
theorem bcdStoresThreeDigits : Obligations.BcdStoresThreeDigits := by
  rintro x s ⟨hwf, -⟩
  rw [exec_ldB]
  refine ⟨fun hlo hhi => ?stores, fun hlow => ?reserved, fun hhi hlo => ?pastEnd⟩
  case stores =>
    have hfits : indexAddr s + 3 ≤ Config.memSize := Nat.succ_le_succ hhi
    obtain ⟨hhundreds, htens, hunits⟩ := read_writeBytes_bcdDigits hwf hfits (s.getV x)
    exact ⟨_, storeThroughI_of_le _ _ s hlo hfits, hhundreds, htens, hunits,
      fun a ha => Memory.read_writeBytes_outside _ _ _ a ha, rfl⟩
  case reserved => exact storeThroughI_reserved _ _ (Nat.succ_ne_zero 2) hlow
  case pastEnd => exact storeThroughI_pastEnd _ _ (Nat.succ_ne_zero 2) hlo (Nat.succ_lt_succ hhi)

/-- Settles O42: a store of the x + 1 registers. -/
theorem blockStoreWritesRegisters : Obligations.BlockStoreWritesRegisters := by
  rintro x s ⟨hwf, -⟩
  have hlen := length_regsUpTo x s
  have hne : (regsUpTo x s).length ≠ 0 := by omega
  refine ⟨fun hlo hhi => ?stores, fun hlow => ?reserved, fun hhi hlo => ?pastEnd⟩
  case stores =>
    have hfits : indexAddr s + (x.toNat + 1) ≤ Config.memSize := Nat.succ_le_succ hhi
    exact ⟨_, exec_storeRegs_of_le x s hlo hfits, read_writeBytes_regsUpTo hwf s hfits,
      fun a ha => Memory.read_writeBytes_outside _ _ _ a (by omega), rfl⟩
  case reserved =>
    rw [exec_storeRegs]
    exact storeThroughI_reserved _ _ hne hlow
  case pastEnd =>
    rw [exec_storeRegs]
    exact storeThroughI_pastEnd _ _ hne hlo (by rw [hlen]; exact Nat.succ_lt_succ hhi)

/-! ## Loads through I (43_index_memory R145, 20_memory R53, R54, R57) -/

section
variable {x : Nibble} {s : State}

theorem exec_loadRegs_of_le (hhi : indexAddr s + (x.toNat + 1) ≤ Config.memSize) :
    exec (.loadRegs x) s = .next (s.setRegs (Memory.readBytes s.mem (indexAddr s) (x.toNat + 1))) := by
  rw [exec, execLoadRegs, memRead_of_le s (.inr hhi)]

/-- A load that runs out of memory faults at I or at 0x1000, whichever is higher. -/
theorem exec_loadRegs_pastEnd (hhi : Config.memSize < indexAddr s + (x.toNat + 1)) :
    exec (.loadRegs x) s =
      .next (faultEntry (.loadRegs x) .addressingFault (some (max (indexAddr s) Config.memSize)) s) := by
  simp only [exec, execLoadRegs, memRead, firstFailing_readable_some (Nat.succ_ne_zero _) hhi, raise_eq_faultEntry]

end

/-- Register j after a load of n bytes from address a into V0 and up. -/
theorem getV_setRegs_readBytes (s : State) (a n : Nat) (j : Nibble) :
    (s.setRegs (Memory.readBytes s.mem a n)).getV j =
      if j.toNat < n then Memory.read s.mem (a + j.toNat) else s.getV j := by
  rw [getV_setRegs]
  simp only [Memory.length_readBytes]
  split
  · next hj => exact Memory.getElem_readBytes s.mem a n j.toNat hj
  · rfl

/-- Settles O43: the x + 1 bytes that a load that fits reads, register by register. -/
theorem blockLoadReadsRegisters : Obligations.BlockLoadReadsRegisters := by
  intro x s
  refine ⟨fun hhi => ?loads, fun hhi => exec_loadRegs_pastEnd (Nat.succ_lt_succ hhi)⟩
  case loads =>
    refine ⟨_, exec_loadRegs_of_le (Nat.succ_le_succ hhi), fun j hj => ?_, fun j hj => ?_, rfl⟩
    · rw [getV_setRegs_readBytes, if_pos (Nat.lt_succ_of_le hj)]
    · rw [getV_setRegs_readBytes, if_neg (Nat.not_lt.mpr hj)]

end Sys2Proof.Machine
end

section
/-! SUPPORT. The display (44_display.md): CLS, and DRW as a set of distinct pixels, each toggled once, built up column by
column and row by row as R151's loops run. -/

namespace Sys2Proof.Machine

/-! ## CLS (44_display R150) -/

theorem exec_cls (s : State) : exec .cls s = .next (s.setDisp clearDisplay) := rfl

/-- Settles O45: CLS puts the clear display in place of DISP. -/
theorem clearTurnsEveryPixelOff : Obligations.ClearTurnsEveryPixelOff :=
  fun s => ⟨_, exec_cls s, pixel_clearDisplay, rfl⟩

/-! ## Drawing a set of pixels (44_display R151) -/

/-- `Draws P d e`: e is d with each pixel of P toggled once, and collides where d does or a pixel of P was lit in d. -/
structure Draws (P : Nat → Nat → Prop) (d e : Drawing) : Prop where
  pixel_iff : ∀ row col, pixel e.disp row col = true ↔ ¬ (pixel d.disp row col = true ↔ P row col)
  collide_iff : e.collide = true ↔ d.collide = true ∨ ∃ row col, P row col ∧ pixel d.disp row col = true

namespace Draws
variable {P Q R : Nat → Nat → Prop} {d e f : Drawing}

theorem of_empty (hP : ∀ row col, ¬ P row col) : Draws P d d :=
  ⟨fun row col => by simp [hP row col], by simp [hP]⟩

/-- Two disjoint sets drawn one after the other: the second finds its pixels as they were before the first. -/
theorem append (hP : Draws P d e) (hQ : Draws Q e f) (hdisj : ∀ row col, P row col → ¬ Q row col)
    (hR : ∀ row col, R row col ↔ P row col ∨ Q row col) : Draws R d f := by
  have hkept : ∀ row col, Q row col → (pixel e.disp row col = true ↔ pixel d.disp row col = true) := by
    intro row col hq
    have hnot : ¬ P row col := fun hp => hdisj row col hp hq
    simp [hP.pixel_iff row col, hnot]
  refine ⟨fun row col => ?pixel, ?collide⟩
  case pixel =>
    have hnot := hdisj row col
    rw [hQ.pixel_iff, hP.pixel_iff, hR]
    tauto
  case collide =>
    have hlit : (∃ row col, Q row col ∧ pixel e.disp row col = true) ↔
        ∃ row col, Q row col ∧ pixel d.disp row col = true :=
      exists₂_congr fun row col => and_congr_right (hkept row col)
    simp only [hQ.collide_iff, hP.collide_iff, hlit, hR, or_and_right, exists_or, or_assoc]

/-- A set drawn a second time, on the display the first left, restores the display. -/
theorem twice {e' : Drawing} (h : Draws P d e) (h' : Draws P e' f) (he : e'.disp = e.disp) : f.disp = d.disp := by
  refine display_ext fun row col _ _ => Bool.eq_iff_iff.mpr ?_
  rw [h'.pixel_iff, he, h.pixel_iff]
  tauto

end Draws

theorem drawPixel_draws {py px : Nat} (hy : py < 32) (hx : px < 64) (d : Drawing) :
    Draws (fun row col => row = py ∧ col = px) d (drawPixel py px d) := by
  constructor
  · intro row col
    have htoggle := pixel_togglePixel d.disp py px row col hx
    rw [drawPixel, htoggle, Bool.xor_iff_ne, Ne, Bool.eq_iff_iff, decide_eq_true_iff, and_iff_right hy]
  · simp [drawPixel]

/-! ## The columns of a row and the rows of a sprite, with wrap (44_display R151, D18) -/

/-- The bits of the sprite byte b from column c on, k of them, that are set: one falls on column col. -/
def ByteCovers (b : Byte) (x0 c k col : Nat) : Prop :=
  ∃ j < k, col = (x0 + (c + j)) % 64 ∧ b.getLsbD (7 - (c + j)) = true

theorem byteCovers_succ (b : Byte) (x0 c k col : Nat) :
    ByteCovers b x0 c (k + 1) col ↔
      (col = (x0 + c) % 64 ∧ b.getLsbD (7 - c) = true) ∨ ByteCovers b x0 (c + 1) k col := by
  simp only [ByteCovers, Nat.exists_lt_succ_left, Nat.add_zero, Nat.add_assoc, Nat.add_comm 1]

/-- At most 64 columns, so none of them falls on another. -/
theorem drawColumns_draws (b : Byte) (x0 : Nat) {py : Nat} (hy : py < 32) (c k : Nat) (hk : k ≤ 64) (d : Drawing) :
    Draws (fun row col => row = py ∧ ByteCovers b x0 c k col) d (drawColumns b x0 py c k d) := by
  induction k generalizing c d with
  | zero => exact .of_empty fun row col => by simp [ByteCovers]
  | succ k ih =>
    have hcolumn : Draws (fun row col => row = py ∧ col = (x0 + c) % 64 ∧ b.getLsbD (7 - c) = true) d
        (if b.getLsbD (7 - c) then drawPixel py ((x0 + c) % 64) d else d) := by
      split
      · next hbit => simpa [hbit] using drawPixel_draws hy (Nat.mod_lt _ (by decide)) d
      · next hbit => exact .of_empty fun row col => by simp [hbit]
    refine hcolumn.append (ih (c + 1) (by omega) _) ?distinct fun row col => ?split
    case distinct =>
      rintro row col ⟨-, hcol, -⟩ ⟨-, j, hj, hcol', -⟩
      omega
    case split => rw [byteCovers_succ, and_or_left]

/-- The rows of a sprite at address a from row r on, n of them: a set bit of one falls on row and col. -/
def RowsCover (m : Memory) (a x0 y0 r n row col : Nat) : Prop :=
  ∃ i < n, row = (y0 + (r + i)) % 32 ∧ ByteCovers (Memory.read m (a + (r + i))) x0 0 8 col

theorem rowsCover_succ (m : Memory) (a x0 y0 r n row col : Nat) :
    RowsCover m a x0 y0 r (n + 1) row col ↔
      (row = (y0 + r) % 32 ∧ ByteCovers (Memory.read m (a + r)) x0 0 8 col) ∨ RowsCover m a x0 y0 (r + 1) n row col := by
  simp only [RowsCover, Nat.exists_lt_succ_left, Nat.add_zero, Nat.add_assoc, Nat.add_comm 1]

/-- At most 32 rows, so none of them falls on another. -/
theorem drawRows_draws (m : Memory) (a x0 y0 r n : Nat) (hn : n ≤ 32) (d : Drawing) :
    Draws (RowsCover m a x0 y0 r n) d (drawRows x0 y0 r (Memory.readBytes m (a + r) n) d) := by
  induction n generalizing r d with
  | zero => exact .of_empty fun row col => by simp [RowsCover]
  | succ n ih =>
    have hrow := drawColumns_draws (Memory.read m (a + r)) x0 (Nat.mod_lt (y0 + r) (by decide : 0 < 32)) 0 8 (by decide) d
    refine hrow.append (ih (r + 1) (by omega) _) ?distinct (rowsCover_succ m a x0 y0 r n)
    case distinct =>
      rintro row col ⟨hrow, -⟩ ⟨i, hi, hrow', -⟩
      omega

/-- The loops from row 0 and column 0 draw the bits of the sprite. -/
theorem rowsCover_eq_spriteCovers (s : State) (x y n : Nibble) :
    RowsCover s.mem (indexAddr s) (startColumn (s.getV x)) (startRow (s.getV y)) 0 n.toNat = SpriteCovers s x y n := by
  funext row col
  simp only [RowsCover, ByteCovers, SpriteCovers, Nat.zero_add, eq_iff_iff]
  constructor
  · rintro ⟨r, hr, hrow, c, hc, hcol, hbit⟩
    exact ⟨r, c, hr, hc, hrow, hcol, hbit⟩
  · rintro ⟨r, c, hr, hc, hrow, hcol, hbit⟩
    exact ⟨r, hr, hrow, c, hc, hcol, hbit⟩

/-! ## DRW (44_display R151, 20_memory R53, R57) -/

section
variable {x y n : Nibble} {s : State}

/-- A DRW that can read its sprite, or has none to read, draws the pixels the sprite covers. -/
theorem exec_drw_of_le (hn : n = 0 ∨ indexAddr s + n.toNat ≤ Config.memSize) :
    ∃ e, exec (.drw x y n) s = .next ((s.setDisp e.disp).setFlag e.collide) ∧
      Draws (SpriteCovers s x y n) { disp := s.disp, collide := false } e := by
  have hread := memRead_of_le s (hn.imp_left (congrArg BitVec.toNat))
  refine ⟨_, by rw [exec, execDrw, hread], ?_⟩
  rw [← rowsCover_eq_spriteCovers]
  exact drawRows_draws _ _ _ _ 0 _ (Nat.le_of_lt (Nat.lt_trans n.isLt (by decide))) _

/-- A DRW that runs out of memory faults at I or at 0x1000, whichever is higher. -/
theorem exec_drw_pastEnd (hn : n ≠ 0) (hhi : Config.memSize < indexAddr s + n.toNat) :
    exec (.drw x y n) s =
      .next (faultEntry (.drw x y n) .addressingFault (some (max (indexAddr s) Config.memSize)) s) := by
  have hrows : n.toNat ≠ 0 := mt (BitVec.toNat_inj (y := 0)).mp hn
  simp only [exec, execDrw, memRead, firstFailing_readable_some hrows hhi, raise_eq_faultEntry]

end

/-- Settles O47: the read of the sprite fails before anything is drawn. -/
theorem drawOutsideMemoryFaults : Obligations.DrawOutsideMemoryFaults :=
  fun _ _ _ _ => exec_drw_pastEnd

theorem State.getV_setDisp_setFlag (s : State) (d : Display) (f : Bool) {j : Nibble} (hj : j ≠ 0xF) :
    ((s.setDisp d).setFlag f).getV j = s.getV j := by
  rw [State.getV_setFlag, if_neg hj, State.getV_setDisp]

/-- Settles O46: the pixels drawn are those of the sprite, and VF is the collision of the drawing. -/
theorem drawTogglesSpritePixels : Obligations.DrawTogglesSpritePixels := by
  intro x y n s hn
  obtain ⟨e, hexec, hpixel, hcollide⟩ := exec_drw_of_le (x := x) (y := y) hn
  refine ⟨_, hexec, fun row col _ _ => hpixel row col, ?flag, fun j => s.getV_setDisp_setFlag _ _, rfl⟩
  case flag =>
    simp only [Bool.false_eq_true, false_or] at hcollide
    rw [State.getV_setFlag, if_pos rfl]
    cases hset : e.collide with
    | true => exact .inl ⟨rfl, hcollide.mp hset⟩
    | false =>
      exact .inr ⟨rfl, fun row col hcov => Bool.eq_false_iff.mpr fun hlit =>
        Bool.eq_false_iff.mp hset (hcollide.mpr ⟨row, col, hcov, hlit⟩)⟩

/-- What a draw writes is not read back, unless a coordinate is in VF. -/
theorem spriteCovers_after_draw {x y : Nibble} (hx : x ≠ 0xF) (hy : y ≠ 0xF) (n : Nibble) (s : State) (d : Display)
    (f : Bool) : SpriteCovers ((s.setDisp d).setFlag f) x y n = SpriteCovers s x y n := by
  unfold SpriteCovers
  rw [s.getV_setDisp_setFlag d f hx, s.getV_setDisp_setFlag d f hy]
  rfl

/-- Settles O48: the first draw changes neither the coordinates nor the sprite, so the second toggles the same pixels. -/
theorem drawingTwiceRestoresDisplay : Obligations.DrawingTwiceRestoresDisplay := by
  intro x y n s t u hx hy hn ht hu
  obtain ⟨e, hexec, hfirst⟩ := exec_drw_of_le (x := x) (y := y) hn
  cases ht.symm.trans hexec
  obtain ⟨f, hexec', hsecond⟩ := exec_drw_of_le (x := x) (y := y) (s := (s.setDisp e.disp).setFlag e.collide) hn
  cases hu.symm.trans hexec'
  rw [spriteCovers_after_draw hx hy] at hsecond
  exact hfirst.twice hsecond rfl

end Sys2Proof.Machine
end

section
/-! SUPPORT. Keys and timers (45_input_timers.md): the key skips, a key wait by what the key scan finds, the loads between Vx and
the timers, and what one tick leaves in a timer. -/

namespace Sys2Proof.Machine

/-! ## The key scan (45_input_timers R162, R163) -/

theorem keyIndex_toNat (b : Byte) : (keyIndex b).toNat = b.toNat % 16 :=
  BitVec.toNat_setWidth 4 b

theorem keyByte_toNat (k : Nibble) : (keyByte k).toNat = k.toNat :=
  BitVec.toNat_setWidth_of_le (by decide)

theorem exists_anyKeyPressed_eq_some {s : State} (hkey : ∃ k, s.getKey k = true) : ∃ b, anyKeyPressed s = some b := by
  obtain ⟨k, hk⟩ := hkey
  refine Option.ne_none_iff_exists'.mp fun hnone => ?_
  exact Bool.false_ne_true ((anyKeyPressed_eq_none.mp hnone k).symm.trans hk)

/-- The scan finds k where k is pressed and no key below it is: of two such keys neither is below the other. -/
theorem anyKeyPressed_of_lowest {s : State} {k : Nibble} (hk : s.getKey k = true)
    (hbelow : ∀ j : Nibble, j.toNat < k.toNat → s.getKey j = false) : anyKeyPressed s = some k := by
  obtain ⟨b, hb⟩ := exists_anyKeyPressed_eq_some ⟨k, hk⟩
  obtain ⟨hpressed, hbelow'⟩ := anyKeyPressed_eq_some hb
  have hge : ¬ b.toNat < k.toNat := fun hlt => Bool.false_ne_true ((hbelow b hlt).symm.trans hpressed)
  have hle : ¬ k.toNat < b.toNat := fun hlt => Bool.false_ne_true ((hbelow' k hlt).symm.trans hk)
  rw [hb, BitVec.eq_of_toNat_eq (Nat.le_antisymm (Nat.le_of_not_lt hle) (Nat.le_of_not_lt hge))]

/-! ## The meanings (45_input_timers R160, R161, R164, R166 to R168) -/

section
variable (x : Nibble) (s : State)

theorem exec_skp : exec (.skp x) s = .next (s.skipIf (s.getKey (keyIndex (s.getV x)))) := rfl

theorem exec_sknp : exec (.sknp x) s = .next (s.skipIf (!s.getKey (keyIndex (s.getV x)))) := rfl

theorem exec_ldVxDT : exec (.ldVxDT x) s = .next (s.setV x s.dt) := rfl

theorem exec_ldDTVx : exec (.ldDTVx x) s = .next (s.setDt (s.getV x)) := rfl

theorem exec_ldSTVx : exec (.ldSTVx x) s = .next (s.setSt (s.getV x)) := rfl

variable {s}

theorem exec_ldVxK_of_none (hscan : anyKeyPressed s = none) : exec (.ldVxK x) s = .next s.rewindPc := by
  rw [exec, execLdVxK, hscan]

theorem exec_ldVxK_of_some {k : Nibble} (hscan : anyKeyPressed s = some k) :
    exec (.ldVxK x) s = .next (s.setV x (keyByte k)) := by
  rw [exec, execLdVxK, hscan]

end

/-- Settles O31: each is a skip on the key in the low nibble of Vx. -/
theorem keySkipsReadOneKey : Obligations.KeySkipsReadOneKey := by
  intro x s k hk
  have hindex : keyIndex (s.getV x) = k := BitVec.eq_of_toNat_eq ((keyIndex_toNat _).trans hk.symm)
  rw [exec_skp, exec_sknp, hindex]
  exact ⟨congrArg _ (s.skipIf_eq_of_iff Iff.rfl), congrArg _ (s.skipIf_eq_of_iff (.of_eq (Bool.not_eq_true' _)))⟩

/-- Settles O50: the scan finds the lowest pressed key, or none, and then PC goes back over the advance. -/
theorem keyWaitStoresLowestKey : Obligations.KeyWaitStoresLowestKey := by
  intro x s
  refine ⟨fun k hk hbelow => ?pressed, fun hnone => exec_ldVxK_of_none x (anyKeyPressed_eq_none.mpr hnone)⟩
  case pressed =>
    refine ⟨_, exec_ldVxK_of_some x (anyKeyPressed_of_lowest hk hbelow), ?_, s.setV_frame x _⟩
    rw [s.getV_setV_same, keyByte_toNat]

/-- Settles O49: the step executes from the advanced state, whose keys are those of s. With none pressed PC goes back to where
the step began; with one pressed it keeps its advanced value. -/
theorem keyWaitContract : Obligations.KeyWaitContract := by
  intro x s hfault hfetch
  have hdecode : decodeWord (encode (.ldVxK x)) = .ok (.ldVxK x) := decodeWord_encode rfl
  rw [step_of_decode hfault hfetch hdecode, stepResult_of_decode hfault hfetch hdecode]
  refine ⟨fun hnone => ?none, fun hpressed => ?pressed⟩
  case none =>
    have hscan : anyKeyPressed s.advancePc = none := anyKeyPressed_eq_none.mpr hnone
    have hexec := exec_ldVxK_of_none x hscan
    rw [State.advancePc_rewindPc] at hexec
    refine ⟨hexec, ?_⟩
    rw [execResult_of_no_fault hexec hfault, waits, hscan]
    rfl
  case pressed =>
    obtain ⟨k, hscan⟩ := exists_anyKeyPressed_eq_some (s := s.advancePc) hpressed
    have hexec := exec_ldVxK_of_some x hscan
    refine ⟨_, hexec, rfl, ?_⟩
    rw [execResult_of_no_fault hexec hfault, waits, hscan]
    rfl

/-! ## Timers and ticks (45_input_timers R166 to R168, 60_exceptions R180, R183) -/

/-- A countdown stops at 0. -/
theorem countDown_toNat (b : Byte) : (countDown b).toNat = b.toNat - 1 := by
  unfold countDown
  split_ifs with hzero
  · rw [hzero]
    rfl
  · bv_omega

theorem countDown_ne_self {b : Byte} (hb : b ≠ 0) : countDown b ≠ b := by
  intro heq
  have hcount := countDown_toNat b
  rw [heq] at hcount
  bv_omega

theorem soundGate_iff (s : State) : soundGate s = true ↔ s.st ≠ 0 :=
  bne_iff_ne

/-- Settles O51: each load is one write, and a tick counts the timer it reads down by 1. -/
theorem timerMoves : Obligations.TimerMoves :=
  fun x s => ⟨⟨_, exec_ldVxDT x s, s.getV_setV_same x _, s.setV_frame x _⟩, countDown_ne_self, exec_ldDTVx x s,
    countDown_toNat (s.getV x), exec_ldSTVx x s, soundGate_iff (s.setSt (s.getV x))⟩

end Sys2Proof.Machine
end

section
/-! SUPPORT. The host operations and the runs made of them (60_exceptions.md R173 to R186): what each can leave, that every run
keeps the state legal, and what a faulted core still does. -/

namespace Sys2Proof.Machine

/-! ## What each operation can leave -/

theorem stepState_eq_or_next (s : State) : stepState s = s ∨ step s = .next (stepState s) := by
  unfold stepState
  cases step s with
  | next t => exact .inr rfl
  | fault r => exact .inl rfl
  | refused r => exact .inl rfl

/-- A ROM load copies a ROM that fits, or changes nothing (70_reset R202 to R204). -/
theorem loadRom_state_cases (input : RomInput) (s : State) :
    (∃ rom : List Byte, rom.length ≤ Config.romMax ∧
        (loadRom input s).2 = { s with mem := Memory.writeBytes s.mem Config.progStart rom }) ∨
      (loadRom input s).2 = s := by
  cases input with
  | loaderError => exact .inr rfl
  | bytes rom =>
    by_cases hlong : Config.romMax < rom.length
    · exact .inr (by rw [loadRom, if_pos hlong])
    · exact .inl ⟨rom, Nat.not_lt.mp hlong, by rw [loadRom, if_neg hlong]⟩

/-- A restore takes over every element a snapshot holds, or changes nothing (70_reset R207). -/
theorem restore_state_cases (p : Snapshot) (s : State) :
    (p.wellFormed = true ∧ snapshot (restore p s).2 = p) ∨ (p.wellFormed ≠ true ∧ (restore p s).2 = s) := by
  by_cases hwf : p.wellFormed = true
  · exact .inl ⟨hwf, by rw [restore, if_pos hwf]; rfl⟩
  · exact .inr ⟨hwf, by rw [restore, if_neg hwf]⟩

/-! ## Runs stay legal (60_exceptions R181, R186) -/

theorem wellFormed_snapshot_iff (s : State) : (snapshot s).wellFormed = true ↔ s.Inv := by
  rw [Snapshot.wellFormed, Bool.and_eq_true, decide_eq_true_eq]
  exact and_comm

theorem stepState_keeps_inv {s : State} (hinv : s.Inv) : (stepState s).Inv := by
  rcases stepState_eq_or_next s with hkeep | hnext
  · rwa [hkeep]
  · exact stepKeepsInv s _ hinv hnext

theorem resetMachine_keeps_inv {s : State} (hinv : s.Inv) : (resetMachine s).Inv :=
  ⟨Memory.wf_resetReserved hinv.left, Nat.zero_le _⟩

theorem loadRom_keeps_inv {s : State} (input : RomInput) (hinv : s.Inv) : (loadRom input s).2.Inv := by
  rcases loadRom_state_cases input s with ⟨rom, hlen, hload⟩ | hkeep
  · have hfits : Config.progStart + rom.length ≤ Config.memSize := Nat.add_le_add_left hlen Config.progStart
    rw [hload]
    exact ⟨Memory.wf_writeBytes hinv.left _ _ hfits, hinv.right⟩
  · rwa [hkeep]

theorem restore_keeps_inv {s : State} (p : Snapshot) (hinv : s.Inv) : (restore p s).2.Inv := by
  rcases restore_state_cases p s with ⟨hwf, hsnap⟩ | ⟨-, hkeep⟩
  · rwa [← wellFormed_snapshot_iff, hsnap]
  · rwa [hkeep]

/-- Every operation keeps the state legal. Neither a tick nor a key touches the memory or the stack. -/
theorem after_keeps_inv {s : State} (e : HostEvent) (hinv : s.Inv) : (s.after e).Inv := by
  cases e with
  | step => exact stepState_keeps_inv hinv
  | tick => exact hinv
  | reset => exact resetMachine_keeps_inv hinv
  | loadRom input => exact loadRom_keeps_inv input hinv
  | setKey k pressed => exact hinv
  | restore p => exact restore_keeps_inv p hinv

/-- Settles O16, by induction on the run. -/
theorem everyRunKeepsInv : Obligations.EveryRunKeepsInv := by
  intro es
  induction es with
  | nil => exact fun _ hinv => hinv
  | cons e rest ih => exact fun s hinv => ih (s.after e) (after_keeps_inv e hinv)

/-! ## A faulted core (60_exceptions R173) -/

theorem loadRom_fault (input : RomInput) (s : State) : (loadRom input s).2.fault = s.fault := by
  rcases loadRom_state_cases input s with ⟨_, -, hload⟩ | hkeep
  · rw [hload]
  · rw [hkeep]

theorem restore_fault_of_wellFormed {p : Snapshot} (hwf : p.wellFormed = true) (s : State) :
    (restore p s).2.fault = p.fault := by
  rcases restore_state_cases p s with ⟨-, hsnap⟩ | ⟨hnot, -⟩
  · exact congrArg Snapshot.fault hsnap
  · exact absurd hwf hnot

section
variable {s : State} {r : FaultRecord} (hfault : s.fault = some r)
include hfault

theorem stepState_of_fault : stepState s = s := by
  rw [stepState, step_of_fault hfault]

theorem stepResult_of_fault : stepResult s = some (.faulted r) := by
  simp only [stepResult, hfault]

theorem reset_or_restore_of_fault_cleared {e : HostEvent} (hclear : (s.after e).fault = none) :
    e = .reset ∨ ∃ p, e = .restore p ∧ p.fault = none := by
  have hset : s.fault ≠ none := by rw [hfault]; exact nofun
  cases e with
  | step => exact absurd ((congrArg State.fault (stepState_of_fault hfault)).symm.trans hclear) hset
  | tick => exact absurd hclear hset
  | reset => exact .inl rfl
  | loadRom input => exact absurd ((loadRom_fault input s).symm.trans hclear) hset
  | setKey k pressed => exact absurd hclear hset
  | restore p =>
    rcases restore_state_cases p s with ⟨hwf, -⟩ | ⟨-, hkeep⟩
    · exact .inr ⟨p, rfl, (restore_fault_of_wellFormed hwf s).symm.trans hclear⟩
    · exact absurd ((congrArg State.fault hkeep).symm.trans hclear) hset

end

/-- Settles O9: a step stops at the fault, and of the operations only reset and restore write FAULT. -/
theorem faultIsSticky : Obligations.FaultIsSticky :=
  fun s _ hfault => ⟨⟨stepResult_of_fault hfault, stepState_of_fault hfault⟩, rfl,
    fun _ => reset_or_restore_of_fault_cleared hfault, fun _ hwf => restore_fault_of_wellFormed hwf s,
    rfl, fun _ _ => rfl, rfl, soundGate_iff s⟩

/-- Settles O10: an unfaulted core fails its fetch, skips its word or executes, and none of the three answers a fault. -/
theorem stepStopsExactlyOnFaultedCore : Obligations.StepStopsExactlyOnFaultedCore := by
  refine fun s r => ⟨fun hstop => ?_, step_of_fault⟩
  cases hfault : s.fault with
  | some q =>
    rw [step_of_fault hfault] at hstop
    cases hstop
    rfl
  | none =>
    rcases step_cases hfault with ⟨_, -, hstep⟩ | ⟨_, _, -, -, hstep⟩ | ⟨_, i, -, -, hstep⟩ <;> rw [hstep] at hstop
    · cases hstop
    · cases hstop
    · exact absurd hstop (exec_ne_fault i _ _)

/-! ## Ticks and keys (60_exceptions R180, R185) -/

/-- Settles O52: the countdown of each timer. -/
theorem tickCountsBothTimersDown : Obligations.TickCountsBothTimersDown :=
  fun s => ⟨countDown_toNat s.dt, countDown_toNat s.st, rfl⟩

theorem State.getKey_setKey_same (s : State) (k : Nibble) (pressed : Bool) : (s.setKey k pressed).getKey k = pressed := by
  rw [State.getKey_setKey, if_pos rfl]

theorem State.getKey_setKey_ne (s : State) {k j : Nibble} (pressed : Bool) (hj : j ≠ k) :
    (s.setKey k pressed).getKey j = s.getKey j := by
  rw [State.getKey_setKey, if_neg hj.symm]

/-- Settles O58: set key writes one entry of KEY, and the host's reads are the scan of 45_input_timers R163. -/
theorem setKeySetsOneKey : Obligations.SetKeySetsOneKey :=
  fun s k pressed => ⟨s.getKey_setKey_same k pressed, fun _ => s.getKey_setKey_ne pressed, rfl,
    s.getKey_setKey_same k pressed, fun _ hscan => (anyKeyPressed_eq_some hscan).left, anyKeyPressed_eq_none⟩

end Sys2Proof.Machine
end

section
/-! SUPPORT. Faults raised by a step (60_exceptions.md R170 to R176): an instruction raises exactly where it has the cause, and
what the record then holds. -/

namespace Sys2Proof.Machine

/-! ## The cause of a fault raises it (60_exceptions R170, 20_memory R57) -/

theorem firstFailing_readable_iff {base n a : Nat} :
    firstFailing readable base n = some a ↔ FirstRefused MayRead base n a :=
  firstFailing_iff_firstRefused readable_iff_mayRead

theorem firstFailing_writable_iff {base n a : Nat} :
    firstFailing writable base n = some a ↔ FirstRefused MayWrite base n a :=
  firstFailing_iff_firstRefused writable_iff_mayWrite

theorem memRead_error_iff {a n bad : Nat} {s : State} :
    memRead a n s = .error bad ↔ FirstRefused MayRead a n bad := by
  rw [← firstFailing_readable_iff, memRead]
  cases firstFailing readable a n with
  | none => exact ⟨nofun, nofun⟩
  | some first => simp only [Except.error.injEq, Option.some.injEq]

theorem exec_of_faultCause {i : Instr} {s : State} {kind : FaultKind} {addr : Option Nat}
    (hcause : FaultCause i s kind addr) : exec i s = .next (faultEntry i kind addr s) := by
  cases kind with
  | stackOverflow =>
    obtain ⟨rfl, ⟨nnn, rfl⟩, hfull⟩ := hcause
    exact exec_call_of_full nnn hfull
  | stackUnderflow =>
    obtain ⟨rfl, rfl, hempty⟩ := hcause
    exact exec_ret_of_empty hempty
  | addressingFault =>
    obtain ⟨a, rfl, ⟨x, y, n, rfl, hbad⟩ | ⟨x, rfl, hbad⟩ | ⟨x, rfl, hbad⟩ | ⟨x, rfl, hbad⟩⟩ := hcause
    · simp only [exec, execDrw, memRead_error_iff.mpr hbad, raise_eq_faultEntry]
    · exact storeThroughI_of_firstFailing _ _ (firstFailing_writable_iff.mpr hbad)
    · refine storeThroughI_of_firstFailing _ _ ?_
      rw [length_regsUpTo]
      exact firstFailing_writable_iff.mpr hbad
    · simp only [exec, execLoadRegs, memRead_error_iff.mpr hbad, raise_eq_faultEntry]

/-! ## Nothing else raises a fault (60_exceptions R170, R176) -/

theorem exec_next_keeps_fault_or_cause {i : Instr} {s t : State} (h : exec i s = .next t) :
    t.fault = s.fault ∨ ∃ kind addr, FaultCause i s kind addr := by
  rcases exec_next_fault_cases h with hkeep | ⟨rfl, hempty, -⟩ | ⟨⟨nnn, rfl⟩, hfull, -⟩ | ⟨hmem, -⟩
  · exact .inl hkeep
  · exact .inr ⟨.stackUnderflow, none, rfl, rfl, hempty⟩
  · exact .inr ⟨.stackOverflow, none, rfl, ⟨nnn, rfl⟩, hfull⟩
  · obtain ⟨x, y, n, rfl⟩ | ⟨x, rfl⟩ | ⟨x, rfl⟩ | ⟨x, rfl⟩ := hmem
    · cases hread : memRead (indexAddr s) n.toNat s with
      | error bad => exact .inr ⟨.addressingFault, some bad, bad, rfl, .inl ⟨x, y, n, rfl, memRead_error_iff.mp hread⟩⟩
      | ok rows => rw [exec, execDrw, hread] at h; cases h; exact .inl rfl
    · rcases storeThroughI_cases (.ldB x) (bcdDigits (s.getV x)) s with ⟨bad, hbad, -⟩ | ⟨-, hstore⟩
      · exact .inr ⟨.addressingFault, some bad, bad, rfl, .inr (.inl ⟨x, rfl, firstFailing_writable_iff.mp hbad⟩)⟩
      · cases hstore.symm.trans h; exact .inl rfl
    · rcases storeThroughI_cases (.storeRegs x) (regsUpTo x s) s with ⟨bad, hbad, -⟩ | ⟨-, hstore⟩
      · rw [length_regsUpTo] at hbad
        exact .inr ⟨.addressingFault, some bad, bad, rfl, .inr (.inr (.inl ⟨x, rfl, firstFailing_writable_iff.mp hbad⟩))⟩
      · cases hstore.symm.trans h; exact .inl rfl
    · cases hread : memRead (indexAddr s) (x.toNat + 1) s with
      | error bad =>
        exact .inr ⟨.addressingFault, some bad, bad, rfl, .inr (.inr (.inr ⟨x, rfl, memRead_error_iff.mp hread⟩))⟩
      | ok bytes => rw [exec, execLoadRegs, hread] at h; cases h; exact .inl rfl

/-- An instruction that raises a fault has its cause, and leaves the entry of that fault. -/
theorem exec_raised {i : Instr} {s t : State} {r : FaultRecord} (hfault : s.fault = none) (h : exec i s = .next t)
    (hr : t.fault = some r) : FaultCause i s r.kind r.addr ∧ t = faultEntry i r.kind r.addr s := by
  rcases exec_next_keeps_fault_or_cause h with hkeep | ⟨kind, addr, hcause⟩
  · rw [hkeep, hfault] at hr
    cases hr
  · cases h.symm.trans (exec_of_faultCause hcause)
    cases hr
    exact ⟨hcause, rfl⟩

/-- Settles O12: a raised fault has its cause, and each cause raises its fault. -/
theorem faultCauses : Obligations.FaultCauses :=
  ⟨fun _ _ _ _ hfault h hr => (exec_raised hfault h hr).left, fun _ _ _ _ => exec_of_faultCause⟩

/-! ## What the record holds (60_exceptions R171, R172) -/

theorem FaultCause.addr_eq_none_iff {i : Instr} {s : State} {kind : FaultKind} {addr : Option Nat}
    (hcause : FaultCause i s kind addr) : addr = none ↔ kind ≠ .addressingFault := by
  cases kind with
  | stackOverflow => exact iff_of_true hcause.left nofun
  | stackUnderflow => exact iff_of_true hcause.left nofun
  | addressingFault =>
    obtain ⟨a, rfl, -⟩ := hcause
    exact iff_of_false nofun (not_not_intro rfl)

/-- A fault entered from the advanced state is the state at the start of the step with FAULT set. -/
theorem faultEntry_advancePc (i : Instr) (kind : FaultKind) (addr : Option Nat) (s : State) :
    faultEntry i kind addr s.advancePc =
      { s with fault := some { kind := kind, pc := s.pc, word := some (encode i), addr := addr } } := by
  simp [faultEntry, State.advancePc]

/-- Settles O11: the fault is that of the fetch or of the executed instruction, whose encoding is the word fetched. -/
theorem faultsArePrecise : Obligations.FaultsArePrecise := by
  intro s t r hfault h hr
  cases hfetch : fetch s with
  | error a =>
    cases h.symm.trans (step_of_fetch_error hfault hfetch)
    cases hr
    exact ⟨rfl, rfl, stepResult_of_fetch_error hfault hfetch, nofun, fun _ ha => by cases ha; exact ⟨rfl, rfl⟩,
      iff_of_false nofun (not_not_intro rfl)⟩
  | ok w =>
    cases hdecode : decodeWord w with
    | error e =>
      cases h.symm.trans (step_of_decode_error hfault hfetch hdecode)
      cases hfault.symm.trans hr
    | ok i =>
      rw [step_of_decode hfault hfetch hdecode] at h
      obtain ⟨hcause, ht⟩ := exec_raised (s := s.advancePc) hfault h hr
      rw [faultEntry_advancePc, (encode_of_decodeWord hdecode).left] at ht
      have hrecord : r = { kind := r.kind, pc := s.pc, word := some w, addr := r.addr } := by
        rw [ht] at hr
        exact (Option.some.inj hr).symm
      rw [← hrecord] at ht
      refine ⟨ht, congrArg FaultRecord.pc hrecord, ?_, ?_, nofun, hcause.addr_eq_none_iff⟩
      · rw [stepResult_of_decode hfault hfetch hdecode, execResult_of_fault h hr]
      · rintro w' ⟨⟩
        exact congrArg FaultRecord.word hrecord

/-- Settles O7: no instruction executes, so the advance of PC is the whole step. -/
theorem unknownWordOnlyAdvancesPc : Obligations.UnknownWordOnlyAdvancesPc := by
  intro s w e hfault hfetch hdecode
  exact ⟨step_of_decode_error hfault hfetch hdecode, stepResult_of_decode_error hfault hfetch hdecode⟩

end Sys2Proof.Machine
end

section
/-! SUPPORT. Reset, power-on, ROM load, snapshot and restore (70_reset_and_hazards.md): the memory and the state each leaves. -/

namespace Sys2Proof.Machine

/-! ## Reset and power-on (70_reset R200, R201, R208) -/

theorem length_font : font.length = 80 := rfl

/-- At power-on memory holds the font at 0x050 to 0x09F and zeros everywhere else (10_state R37, 20_memory R59). -/
theorem Memory.unlisted_eq_font_or_zero (a : Nat) :
    Memory.unlisted a = if 0x050 ≤ a ∧ a < 0x0A0 then font.getD (a - 0x050) 0 else 0 := by
  have hbase : fontBase = 0x050 := rfl
  rw [Memory.unlisted, hbase]
  by_cases hlow : 0x050 ≤ a
  · by_cases hhigh : a < 0x0A0
    · rw [if_pos hlow, if_pos ⟨hlow, hhigh⟩]
    · have hpast : font.length ≤ a - 0x050 := by rw [length_font]; omega
      rw [if_pos hlow, if_neg fun h => hhigh h.right, List.getD_eq_default _ _ hpast]
  · rw [if_neg hlow, if_neg fun h => hlow h.left]

theorem read_resetMachine_low (s : State) {a : Nat} (ha : a ≤ 0x1FF) :
    Memory.read (resetMachine s).mem a = Memory.unlisted a :=
  Memory.read_resetReserved_low s.mem a (Nat.lt_succ_of_le ha)

theorem Memory.resetReserved_resetReserved (m : Memory) :
    Memory.resetReserved (Memory.resetReserved m) = Memory.resetReserved m :=
  List.filter_eq_self.mpr fun _ hcell => (List.mem_filter.mp hcell).right

/-- The zeros of power-on over the font lie in the reserved region, so the reset that follows lists nothing. -/
theorem Memory.resetReserved_zeroed : Memory.resetReserved Memory.zeroed = [] := by decide

theorem resetMachine_resetMachine (s : State) : resetMachine (resetMachine s) = resetMachine s :=
  congrArg (fun m => { resetMachine s with mem := m }) (Memory.resetReserved_resetReserved s.mem)

/-- Settles O53: the reserved region reads as at power-on, the program region as before. -/
theorem resetRestoresCanonicalState : Obligations.ResetRestoresCanonicalState := by
  intro s
  refine ⟨fun a ha => ?_, fun a ha => Memory.read_resetReserved_high s.mem a ha, pixel_clearDisplay,
    fun j => Vector.getElem_replicate j.isLt, fun _ hk => Vector.getElem_replicate hk, rfl, rfl, rfl, rfl, rfl, rfl, rfl⟩
  rw [read_resetMachine_low s ha, Memory.unlisted_eq_font_or_zero]

/-- Settles O54: in the reserved region both resets read as at power-on, and a second reset finds nothing there to clear. -/
theorem resetIsIdempotent : Obligations.ResetIsIdempotent :=
  fun s u => ⟨rfl, fun _ ha => (read_resetMachine_low s ha).trans (read_resetMachine_low u ha).symm,
    resetMachine_resetMachine s⟩

/-- Settles O55: reset empties the memory of power-on and sets every other field but the keys, released before, and draws. -/
theorem powerOnGivesResetState : Obligations.PowerOnGivesResetState :=
  fun s => congrArg (fun m => { State.reset with mem := m, draws := s.draws }) Memory.resetReserved_zeroed

/-! ## ROM load (70_reset R202 to R204) -/

theorem loadRom_of_fits {rom : List Byte} (hfits : rom.length ≤ Config.romMax) (s : State) :
    loadRom (.bytes rom) s = (.ok, { s with mem := Memory.writeBytes s.mem Config.progStart rom }) := by
  rw [loadRom, if_neg (Nat.not_lt.mpr hfits)]

theorem loadRom_of_too_large {rom : List Byte} (hlong : Config.romMax < rom.length) (s : State) :
    loadRom (.bytes rom) s = (.romTooLarge, s) := by
  rw [loadRom, if_pos hlong]

/-- Settles O56: a load that fits is one write of the bytes of the ROM, all of it inside memory. -/
theorem romLoadIsAllOrNothing : Obligations.RomLoadIsAllOrNothing := by
  intro rom s hinv
  refine ⟨fun hfits => ⟨_, loadRom_of_fits hfits s, fun k hk => ?_, fun a ha => ?_, rfl⟩,
    fun hlong => loadRom_of_too_large hlong s, rfl⟩
  · have htop : Config.progStart + rom.length ≤ Config.memSize := Nat.add_le_add_left hfits Config.progStart
    exact Memory.read_writeBytes_inside hinv.left _ rom htop k hk
  · exact Memory.read_writeBytes_outside s.mem _ rom a ha

/-! ## Snapshot and restore (70_reset R206, R207) -/

theorem restore_snapshot {s : State} (hinv : s.Inv) (u : State) :
    restore (snapshot s) u = (.ok, { s with draws := u.draws }) := by
  rw [restore, if_pos ((wellFormed_snapshot_iff s).mpr hinv)]
  rfl

theorem restore_of_not_wellFormed {p : Snapshot} (hnot : p.wellFormed ≠ true) (s : State) :
    restore p s = (.refused, s) := by
  rw [restore, if_neg hnot]

theorem snapshot_of_restore_ok {p : Snapshot} {s t : State} (h : restore p s = (.ok, t)) : snapshot t = p := by
  rcases restore_state_cases p s with ⟨-, hsnap⟩ | ⟨hnot, -⟩
  · rwa [h] at hsnap
  · rw [restore_of_not_wellFormed hnot] at h
    cases h

theorem Snapshot.sp_le_of_wellFormed {p : Snapshot} (hwf : p.wellFormed = true) : p.sp.toNat ≤ Config.stackDepth := by
  rw [Snapshot.wellFormed, Bool.and_eq_true, decide_eq_true_eq] at hwf
  exact hwf.left

/-- Settles O57: the snapshot of a legal state is well formed, and one whose SP is above 16 is not. -/
theorem snapshotRoundTrip : Obligations.SnapshotRoundTrip :=
  ⟨fun _ u hinv => restore_snapshot hinv u, fun _ _ _ => snapshot_of_restore_ok,
    fun _ s hsp => restore_of_not_wellFormed (fun hwf => Nat.not_lt.mpr (Snapshot.sp_le_of_wellFormed hwf) hsp) s⟩

end Sys2Proof.Machine
end
